-- ==== Sys2Proof/Word.lean ====
section
/-! DEFINITION. The widths of the block's values (spec 00_scope.md R6, R7; 30_encoding.md R71). Bit 0 is the least
significant bit of each. The cursor, the buffer length and the offsets are natural numbers (R8, R23) and need no
type here. -/

namespace Sys2Proof

/-- One buffer element, 8 bits unsigned (20_memory.md R50). -/
abbrev Byte := BitVec 8

/-- The 7-bit payload of one byte (30_encoding.md R71). -/
abbrev Segment := BitVec 7

/-- The operation select `op`: 0 is `decode_var_int`, 1 is `decode_var_long` (30_encoding.md R75). -/
abbrev OpBit := BitVec 1

/-- The physical width of `acc` and of the result bus `value` (42_byte_serial_machine.md R160, 10_state.md R22). -/
abbrev Word := BitVec 64

end Sys2Proof
end

