-- ==== Sys2Proof/Config.lean ====
section
/-! DEFINITION. The parameters the spec fixes for the two operations (00_scope.md R6). The open parameter `AW` is no
constant here: the model's cursor and length are unbounded naturals (92_eei_decisions.md D4, log entry 2), and `LEN` and
the buffer are the host's. The spec leaves no value without a result, so there is no free value (log entry 11). -/

namespace Sys2Proof.Config

/-- `SEGW`, the payload bits of one byte (00_scope.md R6). -/
def segw : Nat := 7

/-- `W`, the width of the result (00_scope.md R6, 42_byte_serial_machine.md R160). -/
def width (op : OpBit) : Nat := if op = 0 then 32 else 64

/-- `MAXB`, the most bytes one operation may consume (00_scope.md R6, 42_byte_serial_machine.md R160). -/
def maxb (op : OpBit) : Nat := if op = 0 then 5 else 10

end Sys2Proof.Config
end

