-- ==== Sys2Proof/Syntax.lean ====
section
/-! DEFINITION. The instructions: one constructor per row of spec/opcode_table.json (30_encoding.md R77). -/

namespace Sys2Proof

/-- The column "format" of the opcode table: an `OP` word is the one-bit input `op`, a `BYTE` word is a fetched buffer
element (30_encoding.md R77). The two formats are two inputs of the block, so a word is read in one of them. -/
inductive Format where
  /-- The one-bit operation select input (R75). -/
  | op
  /-- A buffer byte (R71). -/
  | byte
  deriving DecidableEq, Repr

/-- The four encoded things of the machine (30_encoding.md R77). -/
inductive Instr where
  /-- `decode_var_int`: one whole 32-bit operation (40_var_int_32.md R101). -/
  | decodeVarInt
  /-- `decode_var_long`: one whole 64-bit operation (41_var_long_64.md R131). -/
  | decodeVarLong
  /-- `CONT`: a byte with bit 7 set, carrying its segment (42_byte_serial_machine.md R166, R167). -/
  | cont (seg : Segment)
  /-- `LAST`: a byte with bit 7 clear, carrying its segment (42_byte_serial_machine.md R165). -/
  | last (seg : Segment)
  deriving DecidableEq, Repr

/-- The format an instruction is encoded in. -/
def Instr.format : Instr → Format
  | .decodeVarInt => .op
  | .decodeVarLong => .op
  | .cont _ => .byte
  | .last _ => .byte

end Sys2Proof
end

