-- ==== Sys2Proof/Decode.lean ====
section
/-! DEFINITION. Decoding of the two inputs of the block, the encoder of the same table, and the reference encoder of the
test vectors. Follows 30_encoding.md R71, R72, R75, R77 and spec/opcode_table.json. -/

namespace Sys2Proof

/-- The segment of a byte, bits 6:0 (30_encoding.md R71). -/
def segmentOf (b : Byte) : Segment := b.extractLsb' 0 7

/-- The continuation bit of a byte, bit 7 (30_encoding.md R71, 10_state.md R28). -/
def continues (b : Byte) : Bool := b.getLsbD 7

/-- The operation the input `op` selects; both values are used (30_encoding.md R75). -/
def decodeOp (op : OpBit) : Instr :=
  if op = 0 then .decodeVarInt else .decodeVarLong

/-- The class of a fetched byte, chosen by bit 7 alone; no byte is illegal (30_encoding.md R72, R78). -/
def decodeByte (b : Byte) : Instr :=
  if continues b then .cont (segmentOf b) else .last (segmentOf b)

/-- Why a list of bytes holds no instruction word. -/
inductive DecodeError where
  /-- There is no byte to decode. -/
  | noByte
  /-- An `OP` word is one bit; this byte has a bit above bit 0 set (30_encoding.md R75). -/
  | notAnOpBit (b : Byte)
  deriving DecidableEq, Repr

/-- The instruction at the head of a list of bytes, read in a format, with the bytes after it. An `OP` word stands in the
low bit of a byte of its own. -/
def decode (f : Format) : List Byte → Except DecodeError (Instr × List Byte)
  | [] => .error .noByte
  | b :: rest =>
    match f with
    | .op => if b.toNat < 2 then .ok (decodeOp (b.extractLsb' 0 1), rest) else .error (.notAnOpBit b)
    | .byte => .ok (decodeByte b, rest)

/-- The byte of a class: bit 7 and the segment under it (30_encoding.md R71). -/
def byteWord (c : BitVec 1) (seg : Segment) : Byte := c ++ seg

/-- The word of an instruction, as bytes (30_encoding.md R72, R75). -/
def encode : Instr → List Byte
  | .decodeVarInt => [0]
  | .decodeVarLong => [1]
  | .cont seg => [byteWord 1 seg]
  | .last seg => [byteWord 0 seg]

/-- The format in which a table word is read, when nothing but its bits is given. An `OP` word has no bit above bit 0, so
a word of fewer than 8 bits, and the words 0 and 1, are read as `OP` words, whose rows stand first in the table
(DESIGN CHOICE, log entry 6: the words 0 and 1 are also `LAST` bytes; the machine never has to choose, since a fetched byte
is always read by `decodeByte` and the input `op` by `decodeOp`). -/
def tableFormat (nbits w : Nat) : Format :=
  if nbits < 8 ∨ w < 2 then .op else .byte

/-- The instruction the decoder reads from a word numbered as spec/opcode_table.json numbers it. -/
def decodeTableWord (nbits w : Nat) : Option Instr :=
  if nbits = 0 ∨ 8 < nbits ∨ 2 ^ nbits ≤ w then none
  else
    match decode (tableFormat nbits w) [BitVec.ofNat 8 w] with
    | .ok (i, _) => some i
    | .error _ => none

/-- The conventional shortest encoder of 95_test_vectors.md section 4, on the unsigned pattern, in at most `fuel` bytes.
Test equipment, no part of the block (PRESUMED in the spec itself: general knowledge G1, log entry 10). -/
def referenceEncoder : (fuel : Nat) → (u : Nat) → List Byte
  | 0, _ => []
  | fuel + 1, u =>
    if u / 128 = 0 then [byteWord 0 (BitVec.ofNat 7 u)]
    else byteWord 1 (BitVec.ofNat 7 u) :: referenceEncoder fuel (u / 128)

/-- `encode_var_int` of 40_var_int_32.md R118 (1). -/
def encodeVarInt (v : BitVec 32) : List Byte := referenceEncoder 5 v.toNat

/-- `encode_var_long` of 41_var_long_64.md R148 (1). -/
def encodeVarLong (v : BitVec 64) : List Byte := referenceEncoder 10 v.toNat

end Sys2Proof
end

