-- ==== Sys2Proof/Machine/State.lean ====
section
/-! DEFINITION. The state of the block and of the host beside it, the reasons a step can stop, and the state after reset
(10_state.md R20, R32; 42_byte_serial_machine.md R160). -/

namespace Sys2Proof.Machine

/-- The three error kinds; the only exceptional events (60_exceptions.md R190). -/
inductive ErrorKind where
  /-- A byte is needed and `ptr >= LEN` (R192). -/
  | unexpectedEndOfBuffer
  /-- The fifth byte of a 32-bit operation has bit 7 set (R193). -/
  | varIntTooLong
  /-- The tenth byte of a 64-bit operation has bit 7 set (R194). -/
  | varLongTooLong
  deriving DecidableEq, Repr

/-- The outcome register, by name; its numbers stand at the port only (60_exceptions.md R195, `Status.code`). -/
inductive Status where
  /-- Code 0. -/
  | ok
  /-- Codes 1, 2, 3. -/
  | error (kind : ErrorKind)
  deriving DecidableEq, Repr

/-- The progress of an operation (42_byte_serial_machine.md R161). -/
inductive Phase where
  /-- After reset, before the first operation; no result held. -/
  | idle
  /-- An operation is in progress. -/
  | reading
  /-- The last operation succeeded. -/
  | done
  /-- The last operation failed. -/
  | failed
  deriving DecidableEq, Repr

/-- The outcome of one operation: a tagged value, with no value in the error branch (00_scope.md R10,
60_exceptions.md R203). -/
inductive OpResult (w : Nat) where
  /-- `Ok(value, cursor')`. -/
  | ok (value : BitVec w) (cursor : Nat)
  /-- `Err(kind)`. -/
  | err (kind : ErrorKind)
  deriving DecidableEq, Repr

/-- What the host can read of the block (10_state.md R33). -/
inductive HostReg where
  | phase
  | cursor
  | value
  | status
  deriving DecidableEq, Repr

/-- One move of the host (70_reset_and_hazards.md R237), and `wait`, where the host does nothing and the block takes its
own step. DESIGN CHOICE, log entry 4: the coming moves are data of the state. -/
inductive HostMove where
  /-- The host does nothing in this step. -/
  | wait
  /-- Reset the block; legal always (R220, R222). -/
  | reset
  /-- Present a buffer; `LEN` is its length (R223, R237). -/
  | present (bytes : List Byte)
  /-- Change one byte of the buffer (R224). -/
  | edit (addr : Nat) (b : Byte)
  /-- `set_cursor(n)` (R168). -/
  | setCursor (n : Nat)
  /-- START(`op`) of the byte-serial machine (R162). -/
  | start (op : OpBit)
  /-- One whole operation as one atomic transition, the reference level (R14, R85, R101, R131). -/
  | operation (op : OpBit)
  /-- Read a register; nothing changes (R33). -/
  | read (r : HostReg)
  deriving DecidableEq, Repr

/-- The state of the block (R160), and the host's buffer, length and coming moves. -/
structure State where
  /-- The progress of the operation (R161). -/
  phase : Phase
  /-- The operation in progress, latched at the start (R20, R162). -/
  opq : OpBit
  /-- The working accumulator, 64 physical bits (R160). -/
  acc : Word
  /-- The bit-offset of the next segment (R20). -/
  off : Nat
  /-- The working read position (R20). -/
  ptr : Nat
  /-- The bytes consumed so far (R20). -/
  cnt : Nat
  /-- The shared read position; it plays the program counter (R23). -/
  cursor : Nat
  /-- The result register, as packed on the 64-bit bus (R21, R22). -/
  value : Word
  /-- The outcome of the last operation (R27). -/
  status : Status
  /-- The host's buffer: cells in canonical form, an unlisted index holding 0x00 (R50; log entry 3). -/
  mem : List Host.Cell
  /-- `LEN`, the length of the buffer (R50). -/
  len : Nat
  /-- The host's coming moves, the next one first (the model's own field, log entry 4). -/
  host : List HostMove
  deriving DecidableEq, Repr

/-- Why the machine stops with a fault. The error kinds of R190 are outcomes and no faults (60_exceptions.md R191). -/
inductive Fault where
  /-- Raised by `memRead` for an index that is no element of the buffer, where 00_scope.md R9 leaves `MemRead` undefined.
  Every use is guarded by the bounds check (20_memory.md R55), so no step raises it. Safe. -/
  | accessOutsideBuffer (addr : Nat)
  deriving DecidableEq, Repr

/-- Why a step has no meaning. -/
inductive Refusal where
  /-- Raised by `exec` for an instruction without a meaning yet. Safe. -/
  | notModelled (mnemonic : String)
  /-- Raised by the two operations and by START while an operation is READING (70_reset_and_hazards.md R232,
  93_implementation_defined.md U6). Safe. -/
  | operationWhileReading
  /-- Raised by the host move `setCursor` while READING (R230, U6). Safe. -/
  | cursorWriteWhileReading
  /-- Raised by the host moves `present` and `edit` while READING (R231, U6). Safe. -/
  | bufferWriteWhileReading
  /-- Raised by the host move `edit` for an index that is no element of the buffer (R50). Safe. -/
  | editOutsideBuffer (addr : Nat)
  /-- Raised by the host move `read` where 10_state.md R33 gives the host no right to read (U6). Safe. -/
  | readNotAllowed (r : HostReg)
  /-- Raised by CONT and LAST when no operation is READING: a BYTE step is enabled in READING only
  (42_byte_serial_machine.md R161, R164). Safe. -/
  | byteOutsideReading
  deriving DecidableEq, Repr

/-- The state after reset: the values of 10_state.md R32. The buffer, its length and the host's moves are not the
block's (R221): nothing is presented and no move is pending (DESIGN CHOICE, log entries 3 and 4). -/
def State.reset : State where
  phase := .idle
  opq := 0
  acc := 0
  off := 0
  ptr := 0
  cnt := 0
  cursor := 0
  value := 0
  status := .ok
  mem := []
  len := 0
  host := []

end Sys2Proof.Machine
end

