-- ==== Sys2Proof/Machine/Flags.lean ====
section
/-! DEFINITION. The outcome codes, the block's only status (10_state.md R27, 30_encoding.md R76), and the too-long kind of
each operation (30_encoding.md R75). There are no arithmetic flags. -/

namespace Sys2Proof.Machine

/-- The code of an error kind (60_exceptions.md R192, R193, R194). -/
def ErrorKind.code : ErrorKind → BitVec 2
  | .unexpectedEndOfBuffer => 1
  | .varIntTooLong => 2
  | .varLongTooLong => 3

/-- The 2-bit code at the `status` port (30_encoding.md R76). -/
def Status.code : Status → BitVec 2
  | .ok => 0
  | .error k => k.code

/-- `TOOLONG`, the error of a too-long encoding, as a function of the operation (42_byte_serial_machine.md R160). -/
def tooLong (op : OpBit) : ErrorKind :=
  if op = 0 then .varIntTooLong else .varLongTooLong

end Sys2Proof.Machine
end

