-- ==== Sys2Proof/Machine/Operands.lean ====
section
/-! DEFINITION. Operand assembly: where a segment lands in the result, and how a result stands on the bus
(30_encoding.md R73, R74, R80; 10_state.md R22). -/

namespace Sys2Proof.Machine

/-- `trunc_w(zext_ext(seg) << off)`: the segment, zero-extended to `ext` bits, moved to its offset and cut to `w` bits
(40_var_int_32.md R101 with `ext` = 35, 41_var_long_64.md R131 and 42_byte_serial_machine.md R164 with `ext` = 70). -/
def placeSegment (ext w : Nat) (seg : Segment) (off : Nat) : BitVec w :=
  ((seg.setWidth ext) <<< off).setWidth w

/-- `acc'` of a byte-step on the 64 physical bits of `acc` (42_byte_serial_machine.md R160, R164). -/
def accumulate (op : OpBit) (acc : Word) (seg : Segment) (off : Nat) : Word :=
  acc ||| (placeSegment 70 (Config.width op) seg off).setWidth 64

/-- A 32-bit result on the 64-bit bus: bits 63:32 copy bit 31 (10_state.md R22). -/
def packInt (v : BitVec 32) : Word := v.signExtend 64

/-- The accumulator as it goes to the result bus (42_byte_serial_machine.md R165). -/
def pack (op : OpBit) (acc : Word) : Word :=
  if op = 0 then packInt (acc.setWidth 32) else acc

end Sys2Proof.Machine
end

