-- ==== Sys2Proof/Machine/Ops.lean ====
section
/-! DEFINITION. The named operations on the buffer and the registers: the one memory access, the failure outcome (`raise`,
the block's way of taking an exception), the success outcome, START, the byte-step's register writes, the host's writes and
reads, and the outputs that are functions of the state. -/

namespace Sys2Proof.Machine

/-- What an index that is not listed holds (log entry 3). -/
def Memory.unlisted : Byte := 0

/-- The byte at an index. -/
def Memory.get : List Host.Cell → Nat → Byte
  | [], _ => Memory.unlisted
  | (a', b') :: rest, a => if a = a' then b' else Memory.get rest a

/-- A cell in front of cells, unless it holds what an unlisted index holds. -/
def Memory.cons (a : Nat) (b : Byte) (rest : List Host.Cell) : List Host.Cell :=
  if b = Memory.unlisted then rest else (a, b) :: rest

/-- Write one byte, keeping the canonical form. -/
def Memory.set : List Host.Cell → Nat → Byte → List Host.Cell
  | [], a, b => Memory.cons a b []
  | (a', b') :: rest, a, b =>
    if a < a' then Memory.cons a b ((a', b') :: rest)
    else if a = a' then Memory.cons a b rest
    else (a', b') :: Memory.set rest a b

/-- The cells of a list of bytes that stands at `a`. -/
def Memory.ofBytes (a : Nat) : List Byte → List Host.Cell
  | [] => []
  | b :: bs => Memory.cons a b (Memory.ofBytes (a + 1) bs)

/-- Addresses rise strictly from `lo` and no cell holds what an unlisted index holds. -/
def Memory.wfFrom (lo : Nat) : List Host.Cell → Bool
  | [] => true
  | (a, b) :: rest => decide (lo ≤ a) && decide (b ≠ Memory.unlisted) && Memory.wfFrom (a + 1) rest

/-- The canonical form. -/
def Memory.wf (m : List Host.Cell) : Bool := Memory.wfFrom 0 m

/-- Every listed index is below `n`. -/
def Memory.below (n : Nat) (m : List Host.Cell) : Bool := m.all fun c => decide (c.1 < n)

/-- The element of the buffer at an index; outside 0..LEN-1 it means nothing, and `memRead` is the access. -/
def State.byteAt (s : State) (a : Nat) : Byte := Memory.get s.mem a

/-- `MemRead(addr, 1)`, defined for `addr < LEN` only (00_scope.md R9, 20_memory.md R54). -/
def memRead (s : State) (a : Nat) : Except Fault Byte :=
  if a < s.len then .ok (s.byteAt a) else .error (.accessOutsideBuffer a)

/-- No operation is in progress, so the host may act (42_byte_serial_machine.md R161). -/
def State.ready (s : State) : Bool := decide (s.phase ≠ .reading)

/-- `raise E`, the failure outcome: the one way an error is taken. The code goes to `status`, zero to `value`, the phase to
FAILED; the cursor keeps `c0`; nothing else is saved and control goes nowhere (60_exceptions.md R200 to R203). There is no
return from it (R204): from FAILED the host moves on as from DONE, by `setCursor` and `startOperation`. -/
def raise (k : ErrorKind) (s : State) : State :=
  { s with status := .error k, value := 0, phase := .failed }

/-- The success outcome: result, OK, advanced cursor, DONE (40_var_int_32.md R107, 41_var_long_64.md R137,
42_byte_serial_machine.md R165). -/
def succeed (v : Word) (cursor : Nat) (s : State) : State :=
  { s with value := v, status := .ok, cursor := cursor, phase := .done }

/-- START(`op`): the working registers start afresh; `cursor`, `value` and `status` are not changed
(42_byte_serial_machine.md R162). -/
def startOperation (op : OpBit) (s : State) : State :=
  { s with opq := op, acc := 0, off := 0, cnt := 0, ptr := s.cursor, phase := .reading }

/-- `acc'`, `off'`, `cnt'`, `ptr'` of a byte-step: its fetch-and-accumulate part (42_byte_serial_machine.md R164), which a
CONT byte below the limit (R167) and a LAST byte (R173) write. -/
def advance (seg : Segment) (s : State) : State :=
  { s with
    acc := accumulate s.opq s.acc seg s.off
    off := s.off + Config.segw
    cnt := s.cnt + 1
    ptr := s.ptr + 1 }

/-- The success of the byte-serial machine, in the state whose `acc` and `ptr` already hold `acc'` and `ptr'`: `value` takes
the accumulator as it goes to the bus, `cursor` the read position (42_byte_serial_machine.md R165). The working registers
keep what the last byte-step accumulated, as the traces show (R173; 95_test_vectors.md P4). -/
def complete (s : State) : State := succeed (pack s.opq s.acc) s.ptr s

/-- A BYTE step up to its read: refused outside READING (R161), the end-of-buffer failure when `ptr >= LEN`
(R163), else the state the byte's class gives. -/
def byteStep (s : State) (afterRead : State) : Host.Outcome State Fault Refusal :=
  if s.phase ≠ .reading then .refused .byteOutsideReading
  else if s.len ≤ s.ptr then .next (raise .unexpectedEndOfBuffer s)
  else .next afterRead

/-- Reset puts every register of the block to its value of 10_state.md R32; the buffer, its length and the host's moves
are the host's and stay (70_reset_and_hazards.md R220 to R222). -/
def resetBlock (s : State) : State :=
  { State.reset with mem := s.mem, len := s.len, host := s.host }

/-- `set_cursor(n)` (42_byte_serial_machine.md R168). -/
def setCursor (n : Nat) (s : State) : State := { s with cursor := n }

/-- The host presents a buffer and its length (70_reset_and_hazards.md R223, R237). -/
def present (bytes : List Byte) (s : State) : State :=
  { s with mem := Memory.ofBytes 0 bytes, len := bytes.length }

/-- The host changes one byte of its buffer (70_reset_and_hazards.md R224). -/
def edit (a : Nat) (b : Byte) (s : State) : State := { s with mem := Memory.set s.mem a b }

/-- The host's move is taken: the moves after it are left. -/
def takeMove (rest : List HostMove) (s : State) : State := { s with host := rest }

/-- The 2-bit code of a phase at the port, in the order of 10_state.md R29 (DESIGN CHOICE, log entry 7). -/
def Phase.code : Phase → BitVec 2
  | .idle => 0
  | .reading => 1
  | .done => 2
  | .failed => 3

/-- What a host read hands over, as a number, where 10_state.md R33 gives the right: `phase` always; `cursor` and `value`
when not READING (`value` is a result in DONE only and reads as 0 otherwise); `status` in DONE and FAILED. -/
def hostRead (r : HostReg) (s : State) : Option Nat :=
  match r with
  | .phase => some s.phase.code.toNat
  | .cursor => if s.phase ≠ .reading then some s.cursor else none
  | .value => if s.phase ≠ .reading then some s.value.toNat else none
  | .status => if s.phase = .done ∨ s.phase = .failed then some s.status.code.toNat else none

/-- The output `busy` (10_state.md R29). -/
def State.busy (s : State) : Bool := decide (s.phase = .reading)

/-- The output `done` (10_state.md R29). -/
def State.doneOut (s : State) : Bool := decide (s.phase = .done ∨ s.phase = .failed)

/-- The output `mem_addr` (92_eei_decisions.md D3): the index a BYTE step reads (42_byte_serial_machine.md R164). -/
def State.memAddr (s : State) : Nat := s.ptr

/-- The output `mem_re` (92_eei_decisions.md D3): raised while READING, for an index below `LEN` only
(20_memory.md R55). -/
def State.memEnable (s : State) : Bool := decide (s.phase = .reading) && decide (s.memAddr < s.len)

end Sys2Proof.Machine
end

