-- ==== Sys2Proof/Machine/ByteSerial.lean ====
section
/-! DEFINITION. The format BYTE: the step of the byte-serial machine for each class of byte
(42_byte_serial_machine.md R163 to R167). -/

namespace Sys2Proof.Machine

/-- A CONT byte: too long at the limit `off' >= W` (R166), else the operation goes on (R167). -/
def execCont (seg : Segment) (s : State) : Host.Outcome State Fault Refusal :=
  byteStep s
    (if Config.width s.opq ≤ s.off + Config.segw then raise (tooLong s.opq) s else advance seg s)

/-- A LAST byte accumulates its segment and ends the operation with success, in any position up to `MAXB` (R164, R165,
R173). -/
def execLast (seg : Segment) (s : State) : Host.Outcome State Fault Refusal :=
  byteStep s (complete (advance seg s))

end Sys2Proof.Machine
end

