-- ==== Sys2Proof/Machine/Operation.lean ====
section
/-! DEFINITION. The format OP: the two operations, each one atomic transition (40_var_int_32.md R101,
41_var_long_64.md R131). -/

namespace Sys2Proof.Machine

/-- The loop of R101 and R131: bounds check, read, accumulate, continuation test, too-long test, in that order (R198).
`passes` bounds the loop: after at most `MAXB` passes the too-long test has ended it, and exceeding the bound is the
too-long error (60_exceptions.md R199). -/
def decodeLoop (w ext : Nat) (tooLongKind : ErrorKind) (s : State) :
    (passes : Nat) → (acc : BitVec w) → (off ptr : Nat) → Except Fault (OpResult w)
  | 0, _, _, _ => .ok (.err tooLongKind)
  | passes + 1, acc, off, ptr =>
    if s.len ≤ ptr then .ok (.err .unexpectedEndOfBuffer)
    else
      match memRead s ptr with
      | .error f => .error f
      | .ok b =>
        let acc' := acc ||| placeSegment ext w (segmentOf b) off
        if continues b = false then .ok (.ok acc' (ptr + 1))
        else if w ≤ off + Config.segw then .ok (.err tooLongKind)
        else decodeLoop w ext tooLongKind s passes acc' (off + Config.segw) (ptr + 1)

/-- What `decode_var_int` answers: a 32-bit vector and the new cursor, or an error kind (40_var_int_32.md R100, R101). -/
def decodeVarIntResult (s : State) : Except Fault (OpResult 32) :=
  decodeLoop 32 35 .varIntTooLong s 5 0 0 s.cursor

/-- What `decode_var_long` answers: a 64-bit vector and the new cursor, or an error kind (41_var_long_64.md R130, R131). -/
def decodeVarLongResult (s : State) : Except Fault (OpResult 64) :=
  decodeLoop 64 70 .varLongTooLong s 10 0 0 s.cursor

/-- The end of an operation: the outcome goes to the registers, the value as it stands on the bus
(42_byte_serial_machine.md R165, 60_exceptions.md R200). -/
def finish {w : Nat} (toBus : BitVec w → Word) (s : State) :
    Except Fault (OpResult w) → Host.Outcome State Fault Refusal
  | .error f => .fault f
  | .ok (.ok v cursor) => .next (succeed (toBus v) cursor s)
  | .ok (.err k) => .next (raise k s)

/-- `decode_var_int` (40_var_int_32.md R101): START's writes (R162), the loop, the outcome. Refused while an operation
is READING (70_reset_and_hazards.md R232). The loop's variables are local: after the operation the hidden registers hold
what START wrote (DESIGN CHOICE, log entry 5; 10_state.md R31). -/
def execDecodeVarInt (s : State) : Host.Outcome State Fault Refusal :=
  if s.phase = .reading then .refused .operationWhileReading
  else finish packInt (startOperation 0 s) (decodeVarIntResult s)

/-- `decode_var_long` (41_var_long_64.md R131), as `execDecodeVarInt` with the numbers of the 64-bit operation. -/
def execDecodeVarLong (s : State) : Host.Outcome State Fault Refusal :=
  if s.phase = .reading then .refused .operationWhileReading
  else finish id (startOperation 1 s) (decodeVarLongResult s)

end Sys2Proof.Machine
end

