-- ==== Sys2Proof/Machine/Dispatch.lean ====
section
/-! DEFINITION. One arm per instruction: the meaning of each row of spec/opcode_table.json. -/

namespace Sys2Proof.Machine

def exec (i : Instr) (s : State) : Host.Outcome State Fault Refusal :=
  match i with
  | .decodeVarInt => Sys2Proof.Machine.execDecodeVarInt s
  | .decodeVarLong => Sys2Proof.Machine.execDecodeVarLong s
  | .cont seg => Sys2Proof.Machine.execCont seg s
  | .last seg => Sys2Proof.Machine.execLast seg s

end Sys2Proof.Machine
end

