-- ==== Sys2Proof/Machine/Fetch.lean ====
section
/-! DEFINITION. What the next step does: which agent moves, and which instruction it fetches
(42_byte_serial_machine.md R161 to R168; 70_reset_and_hazards.md R237). -/

namespace Sys2Proof.Machine

/-- What a step has before it. -/
inductive Fetched where
  /-- An instruction to run, and the state to run it in (the host's move, if one brought it, is taken). -/
  | run (i : Instr) (s : State)
  /-- A step without an instruction: its outcome. -/
  | settled (o : Host.Outcome State Fault Refusal)

/-- A host move that is legal only when no operation is READING (10_state.md R33). -/
def whenReady (s : State) (r : Refusal) (s' : State) : Fetched :=
  if s.phase = .reading then .settled (.refused r) else .settled (.next s')

/-- The block's own step: in READING a BYTE step, which reads the byte at `ptr` (R164) or finds the end of the buffer
(R163); in any other phase the block is idle and keeps its state (60_exceptions.md R211). -/
def blockTurn (s : State) : Fetched :=
  if s.phase ≠ .reading then .settled (.next s)
  else if s.memEnable then
    match memRead s s.memAddr with
    | .error f => .settled (.fault f)
    | .ok b => .run (decodeByte b) s
  else .settled (.next (raise .unexpectedEndOfBuffer s))

/-- The host's step (70_reset_and_hazards.md R237). A move outside the host's rights is refused
(93_implementation_defined.md U6). -/
def hostTurn (m : HostMove) (s : State) : Fetched :=
  match m with
  | .wait => blockTurn s
  | .reset => .settled (.next (resetBlock s))
  | .present bytes => whenReady s .bufferWriteWhileReading (present bytes s)
  | .edit a b =>
    if a < s.len then whenReady s .bufferWriteWhileReading (edit a b s)
    else .settled (.refused (.editOutsideBuffer a))
  | .setCursor n => whenReady s .cursorWriteWhileReading (setCursor n s)
  | .start op => whenReady s .operationWhileReading (startOperation op s)
  | .operation op => .run (decodeOp op) s
  | .read r =>
    match hostRead r s with
    | none => .settled (.refused (.readNotAllowed r))
    | some _ => .settled (.next s)

/-- The next host move if there is one, else the block's own step. -/
def fetch (s : State) : Fetched :=
  match s.host with
  | [] => blockTurn s
  | m :: rest => hostTurn m (takeMove rest s)

/-- The state in which the next step is a BYTE step on the byte `b`: an operation is in progress (if none is, the host's
START of the operation last latched stands before it), `b` stands at `ptr` inside the buffer, and the host waits. -/
def placeByte (b : Byte) (s : State) : State :=
  let s' := if s.phase = .reading then s else startOperation s.opq s
  { s' with
    mem := Memory.set s'.mem s'.ptr b
    len := max s'.len (s'.ptr + 1)
    host := .wait :: s'.host }

/-- The state in which the next step is the operation `op`: the host's next move is that operation. -/
def placeOperation (op : OpBit) (s : State) : State := { s with host := .operation op :: s.host }

/-- The instruction word put where the next step fetches it, in the format `tableFormat` reads it in (log entry 6). -/
def placeWord (nbits w : Nat) (s : State) : State :=
  match tableFormat nbits w with
  | .op => placeOperation (BitVec.ofNat 1 w) s
  | .byte => placeByte (BitVec.ofNat 8 w) s

end Sys2Proof.Machine
end

