-- ==== Sys2Proof/Machine/Step.lean ====
section
/-! DEFINITION. The step: fetch, then run what was fetched. -/

namespace Sys2Proof.Machine

/-- The outcome of what was fetched. -/
def runFetched : Fetched → Host.Outcome State Fault Refusal
  | .run i s => exec i s
  | .settled o => o

/-- One step of the machine: the host's next move or the block's own step. -/
def step (s : State) : Host.Outcome State Fault Refusal := runFetched (fetch s)

/-- The state `s` with the instruction word placed where `step` fetches its next instruction (log entries 6 and 8). -/
def State.withFetchWord (s : State) (nbits w : Nat) : State := placeWord nbits w s

end Sys2Proof.Machine
end

