-- ==== Sys2Proof/WellFormed.lean ====
section
/-! DEFINITION. Well-formedness. No byte value and no operation code is illegal (30_encoding.md R75, R78), and the
segment's range 0..127 is carried by its type, so every instruction is well formed. What can be ill formed is a SEQUENCE of
bytes (R78, R79): `encodedInteger` is the check of R70 and R84. -/

namespace Sys2Proof

/-- Every term of `Instr` is an instruction of the block (30_encoding.md R75, R78). -/
def Instr.wellFormed : Instr → Bool
  | .decodeVarInt => true
  | .decodeVarLong => true
  | .cont _ => true
  | .last _ => true

/-- Zero or more bytes with bit 7 set, then one with bit 7 clear, and nothing after it (30_encoding.md R70). -/
def endsWithLast : List Byte → Bool
  | [] => false
  | [b] => !b.getLsbD 7
  | b :: bs => b.getLsbD 7 && endsWithLast bs

/-- The bytes are one encoded integer of the operation `op`: 1 to `MAXB` bytes in the form of R70
(30_encoding.md R70, R84). -/
def encodedInteger (op : OpBit) (bs : List Byte) : Bool :=
  decide (bs.length ≤ Config.maxb op) && endsWithLast bs

end Sys2Proof
end

