-- ==== Sys2Proof/Safety.lean ====
section
/-! DEFINITION. The terms claims use: what the host sees, what stands in the buffer, the number an encoded integer denotes,
runs of the byte-serial machine and their reads, the outcomes of a run, and the state invariant
(10_state.md R34; 20_memory.md R56; 30_encoding.md R73; 70_reset_and_hazards.md R238). -/

namespace Sys2Proof.Safety

open Sys2Proof.Machine

/-- Everything but the hidden working registers `opq`, `acc`, `off`, `ptr`, `cnt` (10_state.md R31). -/
structure View where
  phase : Phase
  cursor : Nat
  value : Word
  status : Status
  mem : List Host.Cell
  len : Nat
  host : List HostMove
  deriving DecidableEq, Repr

/-- The view of a state. -/
def view (s : State) : View :=
  { phase := s.phase, cursor := s.cursor, value := s.value, status := s.status, mem := s.mem, len := s.len, host := s.host }

/-- The bytes `bs` stand in the buffer from the index `a` on, all of them below `LEN`. -/
def holdsAt (s : State) (a : Nat) : List Byte → Bool
  | [] => true
  | b :: bs => decide (a < s.len) && decide (s.byteAt a = b) && holdsAt s (a + 1) bs

/-- Every byte of the list has bit 7 set. -/
def allContinue (bs : List Byte) : Bool := bs.all continues

/-- The bitwise OR of the segments, the first at offset `off`, each next one 7 higher, cut to `w` bits
(30_encoding.md R73). -/
def assembled (w off : Nat) : List Byte → BitVec w
  | [] => 0
  | b :: bs => BitVec.ofNat w ((b.toNat % 128) * 2 ^ off) ||| assembled w (off + 7) bs

/-- The sum of the segments at their weights, not cut (30_encoding.md R73, R84). -/
def segmentSum : List Byte → Nat
  | [] => 0
  | b :: bs => b.toNat % 128 + 128 * segmentSum bs

/-- The integer the bytes of an encoded integer denote under an operation: `signed_W` of their OR (40_var_int_32.md R104,
41_var_long_64.md R134). -/
def denoted (op : OpBit) (bs : List Byte) : Int :=
  if op = 0 then (assembled 32 0 bs).toInt else (assembled 64 0 bs).toInt

/-- At least `n` bytes remain from the cursor on and the first `n` have bit 7 set (60_exceptions.md R193, R194). -/
abbrev TooLongAt (n : Nat) (s : State) : Prop :=
  s.cursor + n ≤ s.len ∧ ∀ i < n, continues (s.byteAt (s.cursor + i)) = true

/-- Fewer than `n` bytes remain from the cursor on and all of them have bit 7 set (60_exceptions.md R192). -/
abbrev EndOfBufferAt (n : Nat) (s : State) : Prop :=
  s.len - s.cursor < n ∧ ∀ a < s.len, s.cursor ≤ a → continues (s.byteAt a) = true

/-- The view after a failure of kind `k` from a state: the code, no value, FAILED, and nothing else
(60_exceptions.md R200, R201). -/
def failedView (k : ErrorKind) (s : State) : View :=
  { view s with phase := .failed, value := 0, status := .error k }

/-- The outcome of one operation as the host sees it, the value as an integer (00_scope.md R10; 40_var_int_32.md R104;
41_var_long_64.md R134). -/
inductive Observed where
  | ok (value : Int) (cursor : Nat)
  | err (kind : ErrorKind)
  deriving DecidableEq, Repr

/-- The outcome a DONE or FAILED state holds; the integer is `signed_W(value)`, which the bus shows in 64 bits
(10_state.md R21, R22). -/
def observed (s : State) : Option Observed :=
  match s.phase, s.status with
  | .done, _ => some (.ok s.value.toInt s.cursor)
  | .failed, .error k => some (.err k)
  | _, _ => none

/-- `n` steps of the machine, stopping at the first fault or refusal. -/
def steps : Nat → State → Host.Outcome State Fault Refusal
  | 0, s => .next s
  | n + 1, s =>
    match step s with
    | .next t => steps n t
    | .fault f => .fault f
    | .refused r => .refused r

/-- The next step is the block's own: the host makes no move. -/
def blockMoves (s : State) : Bool :=
  match s.host with
  | [] => true
  | .wait :: _ => true
  | _ => false

/-- The index the next step reads, if it is a BYTE step that reads (42_byte_serial_machine.md R164). -/
def stepRead (s : State) : Option Nat :=
  if blockMoves s && s.memEnable then some s.memAddr else none

/-- The indices that the BYTE steps among the next `n` steps read, in order (20_memory.md R56). -/
def readTrace : Nat → State → List Nat
  | 0, _ => []
  | n + 1, s =>
    (stepRead s).toList ++
      match step s with
      | .next t => readTrace n t
      | _ => []

/-- The next step can end an operation: one is in progress, or the host's next move is a whole one. -/
def endsOperation (s : State) : Bool :=
  match s.host with
  | .operation _ :: _ => true
  | _ => decide (s.phase = .reading)

/-- The outcomes of the operations that end within the next `n` steps, in order (70_reset_and_hazards.md R238). -/
def outcomes : Nat → State → List Observed
  | 0, _ => []
  | n + 1, s =>
    match step s with
    | .next t => (if endsOperation s then (observed t).toList else []) ++ outcomes n t
    | _ => []

/-- The buffer is in canonical form and lists no index at or above `LEN`. -/
abbrev MemoryOk (s : State) : Prop :=
  Memory.wf s.mem = true ∧ Memory.below s.len s.mem = true

/-- 10_state.md R34 (a). -/
abbrev CountersOk (s : State) : Prop :=
  s.off = 7 * s.cnt ∧ s.cnt ≤ Config.maxb s.opq

/-- 10_state.md R34 (b), (c), (d); while READING the cursor is `c0` (R23). -/
abbrev ReadingOk (s : State) : Prop :=
  s.phase = .reading →
    s.ptr = s.cursor + s.cnt ∧ (0 < s.cnt → s.ptr ≤ s.len) ∧ s.cnt + 1 ≤ Config.maxb s.opq ∧ s.acc.toNat < 2 ^ s.off

/-- What each phase holds (42_byte_serial_machine.md R161; 10_state.md R22, R27; 60_exceptions.md R196). -/
abbrev OutcomeOk (s : State) : Prop :=
  (s.phase = .idle → s.value = 0 ∧ s.status = .ok) ∧
  (s.phase = .done → s.status = .ok ∧ (s.opq = 0 → s.value = (s.value.setWidth 32).signExtend 64)) ∧
  (s.phase = .failed →
    s.value = 0 ∧ (s.status = .error .unexpectedEndOfBuffer ∨ s.status = .error (tooLong s.opq)))

/-- The invariant of the machine (10_state.md R34). -/
abbrev Inv (s : State) : Prop := MemoryOk s ∧ CountersOk s ∧ ReadingOk s ∧ OutcomeOk s

end Sys2Proof.Safety
end

