-- ==== Sys2Proof/Certificates/Slice0/Obligations.lean ====
section
/-! DEFINITION. The statements for the provers, from the numbered rules of spec/. Where a clause rests on a choice of the
model or on a decision or derivation the spec marks as its own, the docstring says so. -/

open Sys2Proof Sys2Proof.Machine Sys2Proof.Safety

/-! ### Encoding -/

/-- 30_encoding.md section 1 and 4: bytes 0x80 to 0xFF are CONT, bytes 0x00 to 0x7F are LAST, and bits 6:0 are the segment. -/
def Obligations.ByteValueFixesClassAndSegment : Prop :=
  ∀ b : Byte,
    (b.toNat < 128 → ∃ g : Segment, decodeByte b = .last g ∧ g.toNat = b.toNat) ∧
    (128 ≤ b.toNat → ∃ g : Segment, decodeByte b = .cont g ∧ g.toNat = b.toNat - 128)

/-- The op bits and the bytes are written out from 30_encoding.md R75 and R72. The last clause is the model's choice, log
entry 6, and no rule: R75 gives a one-bit input and no op word of a whole byte; the model lays such a word out as a byte
and refuses one with a bit above bit 0. -/
def Obligations.SpecWordsDecode : Prop :=
  decodeOp 0#1 = .decodeVarInt ∧ decodeOp 1#1 = .decodeVarLong ∧
  decodeByte 0b10101100#8 = .cont 0b0101100#7 ∧ decodeByte 0b10000000#8 = .cont 0b0000000#7 ∧
  decodeByte 0b00000010#8 = .last 0b0000010#7 ∧ decodeByte 0b01111111#8 = .last 0b1111111#7 ∧
  decode .op [0b00000010#8] = .error (.notAnOpBit 0b00000010#8)

/-- Every instruction, with every segment, is read back from its word, whatever bytes follow. -/
def Obligations.DecodeOfEncodeIsTheInstruction : Prop :=
  ∀ (i : Instr) (rest : List Byte), i.wellFormed = true → decode i.format (encode i ++ rest) = .ok (i, rest)

/-- Every byte is the word of the instruction it decodes to: no bit of a byte is dropped. -/
def Obligations.EncodeOfDecodedByteIsTheByte : Prop :=
  ∀ b : Byte, encode (decodeByte b) = [b]

/-- The codes of 30_encoding.md section 3 (the numbers are the spec's decision D5): bit 1 means too long, and when it is
set bit 0 repeats `op`. -/
def Obligations.StatusCodesFollowTheTable : Prop :=
  Status.ok.code = 0 ∧ (Status.error .unexpectedEndOfBuffer).code = 1 ∧
  (Status.error .varIntTooLong).code = 2 ∧ (Status.error .varLongTooLong).code = 3 ∧
  (∀ st : Status, st.code.getLsbD 1 = true ↔ st = .error .varIntTooLong ∨ st = .error .varLongTooLong) ∧
  ∀ op : OpBit, (Status.error (tooLong op)).code.getLsbD 0 = op.getLsbD 0

/-- 30_encoding.md R73: the OR of the segments at their offsets is their weighted sum modulo 2^W. -/
def Obligations.OrOfSegmentsIsTheirSum : Prop :=
  ∀ bs : List Byte,
    assembled 32 0 bs = BitVec.ofNat 32 (segmentSum bs) ∧ assembled 64 0 bs = BitVec.ofNat 64 (segmentSum bs)

/-! ### The two operations -/

/-- 40_var_int_32.md R102, R103, R107: on one encoded integer of 1 to 5 bytes the operation completes with the OR of the
segments in the 32-bit result, status OK and the cursor past the last byte. (How the result stands on the 64-bit bus is
`IntResultIsSignExtended`.) -/
def Obligations.DecodeVarIntSucceeds : Prop :=
  ∀ (s : State) (bs : List Byte), s.phase ≠ .reading → encodedInteger 0 bs = true → holdsAt s s.cursor bs = true →
    1 ≤ bs.length ∧ bs.length ≤ 5 ∧
    ∃ t, exec .decodeVarInt s = .next t ∧
      view t = { view s with phase := .done, cursor := s.cursor + bs.length, value := t.value, status := .ok } ∧
      t.value.setWidth 32 = assembled 32 0 bs

/-- 41_var_long_64.md R132, R133, R137: the same for an encoded integer of 1 to 10 bytes. -/
def Obligations.DecodeVarLongSucceeds : Prop :=
  ∀ (s : State) (bs : List Byte), s.phase ≠ .reading → encodedInteger 1 bs = true → holdsAt s s.cursor bs = true →
    1 ≤ bs.length ∧ bs.length ≤ 10 ∧
    ∃ t, exec .decodeVarLong s = .next t ∧
      view t = { view s with
        phase := .done, cursor := s.cursor + bs.length, value := assembled 64 0 bs, status := .ok }

/-- 60_exceptions.md R193: exactly when five bytes remain and all five have bit 7 set, the 32-bit operation fails with
VarIntTooLong; the 64-bit operation never does. That the value is then 0 and the cursor kept is no part of R193: it is
60_exceptions.md section 5, the spec's decisions D6 and D9 (log entry 11). -/
def Obligations.VarIntTooLongExactly : Prop :=
  ∀ s : State, s.phase ≠ .reading →
    (∃ t, exec .decodeVarInt s = .next t ∧ (t.status = .error .varIntTooLong ↔ TooLongAt 5 s) ∧
      (TooLongAt 5 s → view t = failedView .varIntTooLong s)) ∧
    ∃ t, exec .decodeVarLong s = .next t ∧ t.status ≠ .error .varIntTooLong

/-- 60_exceptions.md R194: the same for ten bytes and VarLongTooLong; the value 0 and the kept cursor are again the spec's
decisions D6 and D9 (log entry 11). -/
def Obligations.VarLongTooLongExactly : Prop :=
  ∀ s : State, s.phase ≠ .reading →
    (∃ t, exec .decodeVarLong s = .next t ∧ (t.status = .error .varLongTooLong ↔ TooLongAt 10 s) ∧
      (TooLongAt 10 s → view t = failedView .varLongTooLong s)) ∧
    ∃ t, exec .decodeVarInt s = .next t ∧ t.status ≠ .error .varLongTooLong

/-- 60_exceptions.md R192, for both operations: exactly when fewer than MAXB bytes remain and all of them have bit 7 set
(also when none remains, also when the cursor stands above LEN), the operation fails with UnexpectedEndOfBuffer. That
the value is then 0 and the cursor kept is no part of R192: it is 60_exceptions.md section 5, the spec's decisions D6 and D9
(log entry 11). -/
def Obligations.EndOfBufferExactly : Prop :=
  ∀ s : State, s.phase ≠ .reading →
    (∃ t, exec .decodeVarInt s = .next t ∧ (t.status = .error .unexpectedEndOfBuffer ↔ EndOfBufferAt 5 s) ∧
      (EndOfBufferAt 5 s → view t = failedView .unexpectedEndOfBuffer s)) ∧
    ∃ t, exec .decodeVarLong s = .next t ∧ (t.status = .error .unexpectedEndOfBuffer ↔ EndOfBufferAt 10 s) ∧
      (EndOfBufferAt 10 s → view t = failedView .unexpectedEndOfBuffer s)

/-- 30_encoding.md R84 (marked derived there): an operation succeeds exactly when an encoded integer of it stands at the
cursor, and it ends DONE with OK or FAILED with an error. -/
def Obligations.SuccessExactlyOnEncodedIntegers : Prop :=
  ∀ (op : OpBit) (s : State), s.phase ≠ .reading →
    ∃ t, exec (decodeOp op) s = .next t ∧
      (t.status = .ok ↔ ∃ bs, encodedInteger op bs = true ∧ holdsAt s s.cursor bs = true) ∧
      ((t.phase = .done ∧ t.status = .ok) ∨ (t.phase = .failed ∧ t.status ≠ .ok))

/-- 60_exceptions.md R196: which operation can raise what, the "yes" entries by states that raise it. -/
def Obligations.EachOperationRaisesItsOwnErrors : Prop :=
  (∀ s t, exec .decodeVarInt s = .next t → t.status ≠ .error .varLongTooLong) ∧
  (∀ s t, exec .decodeVarLong s = .next t → t.status ≠ .error .varIntTooLong) ∧
  (∀ st, st ≠ .error .varLongTooLong → ∃ s t, exec .decodeVarInt s = .next t ∧ t.status = st) ∧
  ∀ st, st ≠ .error .varIntTooLong → ∃ s t, exec .decodeVarLong s = .next t ∧ t.status = st

/-- 70_reset_and_hazards.md R232 (the spec's decision D12) and 93_implementation_defined.md U6: an operation while another
is READING is refused, and only then. -/
def Obligations.OperationRefusedExactlyWhileReading : Prop :=
  ∀ s : State,
    (exec .decodeVarInt s = .refused .operationWhileReading ↔ s.phase = .reading) ∧
    (exec .decodeVarLong s = .refused .operationWhileReading ↔ s.phase = .reading)

/-- 40_var_int_32.md R108, 41_var_long_64.md R138: of the host's state an operation changes only the cursor, and only on
success; value and status are written on every outcome; the buffer is never written. -/
def Obligations.OperationFrame : Prop :=
  ∀ (op : OpBit) (s t : State), exec (decodeOp op) s = .next t →
    t.mem = s.mem ∧ t.len = s.len ∧ t.host = s.host ∧ (∀ a, t.byteAt a = s.byteAt a) ∧
    (t.cursor ≠ s.cursor → t.phase = .done ∧ t.status = .ok) ∧
    ∀ (v : Word) (st : Status), exec (decodeOp op) { s with value := v, status := st } = .next t

/-- The hidden registers after a whole operation: the spec gives them no value there (10_state.md section 7), and the model's
choice, log entry 5, is what START wrote. -/
def Obligations.HiddenRegistersAfterOperation : Prop :=
  ∀ (op : OpBit) (s t : State), exec (decodeOp op) s = .next t →
    t.opq = op ∧ t.acc = 0 ∧ t.off = 0 ∧ t.cnt = 0 ∧ t.ptr = s.cursor

/-- 10_state.md section 3 (R24 rests on the spec's decision D9, R25 is marked derived): the cursor moves forward by 1 to MAXB
on success, stays on a failure, and stays within the buffer if it stood within it. -/
def Obligations.CursorAdvancesWithinBuffer : Prop :=
  ∀ (op : OpBit) (s t : State), exec (decodeOp op) s = .next t →
    (t.phase = .done → s.cursor + 1 ≤ t.cursor ∧ t.cursor ≤ s.cursor + Config.maxb op ∧ t.cursor ≤ t.len) ∧
    (t.phase = .failed → t.cursor = s.cursor) ∧
    (s.cursor ≤ s.len → t.cursor ≤ t.len)

/-- 60_exceptions.md section 5 (R201 is marked derived, R203 rests on the spec's decision D6): after a failure the view is the
one before, but for status, a zero value and the phase. -/
def Obligations.FailureIsPrecise : Prop :=
  ∀ (op : OpBit) (s t : State), exec (decodeOp op) s = .next t → t.phase = .failed →
    ∃ k, t.status = .error k ∧ view t = failedView k s

/-- 60_exceptions.md section 6 (R204): the same operation after a failure, with the buffer and the cursor as they are, fails
in the same way. -/
def Obligations.RetryFailsTheSame : Prop :=
  ∀ (op : OpBit) (s t : State), exec (decodeOp op) s = .next t → t.phase = .failed → exec (decodeOp op) t = .next t

/-- 40_var_int_32.md R117: the outcome of `decode_var_int` is a function of the bytes it inspects and of how many remain
up to five: two inputs that agree on these agree on the outcome. -/
def Obligations.DecodeVarIntDependsOnInspectedBytes : Prop :=
  ∀ s s' t t' : State, s.cursor = s'.cursor → min 5 (s.len - s.cursor) = min 5 (s'.len - s'.cursor) →
    (∀ i < min 5 (s.len - s.cursor), s.byteAt (s.cursor + i) = s'.byteAt (s'.cursor + i)) →
    exec .decodeVarInt s = .next t → exec .decodeVarInt s' = .next t' →
    t.phase = t'.phase ∧ t.status = t'.status ∧ t.value = t'.value ∧ t.cursor = t'.cursor

/-- The same for `decode_var_long` and ten bytes (41_var_long_64.md section 5). -/
def Obligations.DecodeVarLongDependsOnInspectedBytes : Prop :=
  ∀ s s' t t' : State, s.cursor = s'.cursor → min 10 (s.len - s.cursor) = min 10 (s'.len - s'.cursor) →
    (∀ i < min 10 (s.len - s.cursor), s.byteAt (s.cursor + i) = s'.byteAt (s'.cursor + i)) →
    exec .decodeVarLong s = .next t → exec .decodeVarLong s' = .next t' →
    t.phase = t'.phase ∧ t.status = t'.status ∧ t.value = t'.value ∧ t.cursor = t'.cursor

/-- 30_encoding.md R80, 40_var_int_32.md R113, 41_var_long_64.md R143 (the spec's decision D8): the segment bits of the last
permitted byte that fall at or above bit W change nothing. -/
def Obligations.ExcessBitsAreIgnored : Prop :=
  ∀ (bs : List Byte) (b b' : Byte), allContinue bs = true → continues b = false → continues b' = false →
    (∀ s s', s.phase ≠ .reading → s'.phase ≠ .reading → bs.length = 4 → b &&& 0x0F = b' &&& 0x0F →
      holdsAt s s.cursor (bs ++ [b]) = true → holdsAt s' s'.cursor (bs ++ [b']) = true →
      ∃ t t', exec .decodeVarInt s = .next t ∧ exec .decodeVarInt s' = .next t' ∧
        t.status = .ok ∧ t'.status = .ok ∧ t.value = t'.value ∧
        t.cursor = s.cursor + 5 ∧ t'.cursor = s'.cursor + 5) ∧
    (∀ s s', s.phase ≠ .reading → s'.phase ≠ .reading → bs.length = 9 → b &&& 0x01 = b' &&& 0x01 →
      holdsAt s s.cursor (bs ++ [b]) = true → holdsAt s' s'.cursor (bs ++ [b']) = true →
      ∃ t t', exec .decodeVarLong s = .next t ∧ exec .decodeVarLong s' = .next t' ∧
        t.status = .ok ∧ t'.status = .ok ∧ t.value = t'.value ∧
        t.cursor = s.cursor + 10 ∧ t'.cursor = s'.cursor + 10)

/-- 40_var_int_32.md section 3 (R104), 41_var_long_64.md section 3 (R134): no short encoding is sign-extended; only one of
MAXB bytes can be negative. -/
def Obligations.NegativeOnlyAtFullLength : Prop :=
  (∀ s t, exec .decodeVarInt s = .next t → t.phase = .done → t.value.toInt < 0 → t.cursor = s.cursor + 5) ∧
  ∀ s t, exec .decodeVarLong s = .next t → t.phase = .done → t.value.toInt < 0 → t.cursor = s.cursor + 10

/-- 10_state.md section 2 (R22, the spec's decision D14): a 32-bit result stands sign-extended on the 64-bit bus, so the two
readings of it as a signed integer agree. -/
def Obligations.IntResultIsSignExtended : Prop :=
  ∀ s t, exec .decodeVarInt s = .next t → t.phase = .done →
    t.value = (t.value.setWidth 32).signExtend 64 ∧ t.value.toInt = (t.value.setWidth 32).toInt

/-- 41_var_long_64.md R147 (marked derived there): what `decode_var_long` gives on the bytes of a `decode_var_int`. -/
def Obligations.LongExtendsIntOnTheSameBytes : Prop :=
  ∀ s ti tl, exec .decodeVarInt s = .next ti → exec .decodeVarLong s = .next tl →
    (ti.phase = .done →
      tl.phase = .done ∧ tl.cursor = ti.cursor ∧ tl.value.setWidth 32 = ti.value.setWidth 32 ∧ tl.value.toNat < 2 ^ 35 ∧
      (ti.cursor = s.cursor + 5 →
        tl.value.extractLsb' 32 3 = (s.byteAt (s.cursor + 4)).extractLsb' 4 3) ∧
      (ti.cursor < s.cursor + 5 → tl.value.toNat < 2 ^ 28) ∧
      (tl.value.toInt = ti.value.toInt ↔
        ti.cursor < s.cursor + 5 ∨ (s.byteAt (s.cursor + 4)).extractLsb' 3 4 = 0)) ∧
    (ti.status = .error .unexpectedEndOfBuffer → tl.status = .error .unexpectedEndOfBuffer) ∧
    (ti.status = .error .varIntTooLong → tl.phase = .done → s.cursor + 6 ≤ tl.cursor)

/-- 40_var_int_32.md R118 (1): every 32-bit value comes back from its encoding, wherever in the buffer it stands. The
encoder is 95_test_vectors.md section 4's, general knowledge by the spec's own mark G1 (log entry 10). That the value stands
sign-extended on the 64-bit bus is 10_state.md section 2, the spec's decision D14. -/
def Obligations.RoundTripVarInt : Prop :=
  ∀ (v : BitVec 32) (s : State), s.phase ≠ .reading → holdsAt s s.cursor (encodeVarInt v) = true →
    ∃ t, exec .decodeVarInt s = .next t ∧
      view t = { view s with
        phase := .done, cursor := s.cursor + (encodeVarInt v).length, value := v.signExtend 64, status := .ok }

/-- 41_var_long_64.md R148 (1), with the encoder of log entry 10: the same for every 64-bit value. -/
def Obligations.RoundTripVarLong : Prop :=
  ∀ (v : BitVec 64) (s : State), s.phase ≠ .reading → holdsAt s s.cursor (encodeVarLong v) = true →
    ∃ t, exec .decodeVarLong s = .next t ∧
      view t = { view s with
        phase := .done, cursor := s.cursor + (encodeVarLong v).length, value := v, status := .ok }

/-- 30_encoding.md R84 (marked derived there), with the encoder of log entry 10: the encoder gives an encoded integer, and no
encoded integer of the same value is shorter. -/
def Obligations.ReferenceEncodingIsShortest : Prop :=
  (∀ v : BitVec 32, encodedInteger 0 (encodeVarInt v) = true ∧ assembled 32 0 (encodeVarInt v) = v) ∧
  (∀ v : BitVec 64, encodedInteger 1 (encodeVarLong v) = true ∧ assembled 64 0 (encodeVarLong v) = v) ∧
  (∀ bs, encodedInteger 0 bs = true → (encodeVarInt (assembled 32 0 bs)).length ≤ bs.length) ∧
  ∀ bs, encodedInteger 1 bs = true → (encodeVarLong (assembled 64 0 bs)).length ≤ bs.length

/-- 40_var_int_32.md R118 (6), 41_var_long_64.md R148 (6): two encoded integers that stand one after the other, decoded by
any two operations on the one cursor, give both values, with the cursor past the second. -/
def Obligations.ConsecutiveIntegersDecodeInTurn : Prop :=
  ∀ (s : State) (op op' : OpBit) (bs bs' : List Byte) (rest : List HostMove), s.phase ≠ .reading →
    encodedInteger op bs = true → encodedInteger op' bs' = true → holdsAt s s.cursor (bs ++ bs') = true →
    s.host = .operation op :: .operation op' :: rest →
    outcomes 2 s =
        [.ok (denoted op bs) (s.cursor + bs.length), .ok (denoted op' bs') (s.cursor + bs.length + bs'.length)] ∧
      ∃ t, steps 2 s = .next t ∧ t.cursor = s.cursor + bs.length + bs'.length ∧ t.status = .ok ∧ t.phase = .done ∧
        t.host = rest

/-! ### The byte-serial machine -/

/-- 42_byte_serial_machine.md R167 with R164: a CONT byte below the limit. -/
def Obligations.ContBelowLimitAccumulates : Prop :=
  ∀ (g : Segment) (s : State), s.phase = .reading → s.ptr < s.len → s.off + 7 < Config.width s.opq →
    exec (.cont g) s = .next { s with
      acc := s.acc ||| BitVec.ofNat 64 ((g.toNat * 2 ^ s.off) % 2 ^ Config.width s.opq)
      off := s.off + 7
      cnt := s.cnt + 1
      ptr := s.ptr + 1 } ∧
    (s.off = 7 * s.cnt → s.cnt + 1 < Config.maxb s.opq)

/-- 42_byte_serial_machine.md R166: a CONT byte at the limit. -/
def Obligations.ContAtLimitIsTooLong : Prop :=
  ∀ (g : Segment) (s : State), s.phase = .reading → s.ptr < s.len → Config.width s.opq ≤ s.off + 7 →
    exec (.cont g) s = .next { s with
      status := .error (if s.opq = 0 then .varIntTooLong else .varLongTooLong)
      value := 0
      phase := .failed } ∧
    (s.off = 7 * s.cnt → s.cnt + 1 ≤ Config.maxb s.opq → s.cnt + 1 = Config.maxb s.opq)

/-- 42_byte_serial_machine.md R165: a LAST byte, in any position. (Its packing for opq = 0 is R165's own line; how it packs
is the spec's decision D14. The working registers are `LastByteKeepsWhatItAccumulated`.) -/
def Obligations.LastByteEndsWithSuccess : Prop :=
  ∀ (g : Segment) (s : State), s.phase = .reading → s.ptr < s.len →
    (∃ t, exec (.last g) s = .next t ∧ t.opq = s.opq ∧
      view t = { view s with
        value :=
          if s.opq = 0 then
            ((s.acc ||| BitVec.ofNat 64 ((g.toNat * 2 ^ s.off) % 2 ^ 32)).setWidth 32).signExtend 64
          else s.acc ||| BitVec.ofNat 64 ((g.toNat * 2 ^ s.off) % 2 ^ 64)
        status := .ok
        cursor := s.ptr + 1
        phase := .done }) ∧
    (s.ptr = s.cursor + s.cnt → s.ptr + 1 = s.cursor + (s.cnt + 1))

/-- 42_byte_serial_machine.md section 4 (the trace of R173, marked derived there) and 95_test_vectors.md section 5 (P4): the
step of a LAST byte leaves the working registers as its fetch-and-accumulate part computes them, the accumulator before any
packing. -/
def Obligations.LastByteKeepsWhatItAccumulated : Prop :=
  ∀ (g : Segment) (s : State), s.phase = .reading → s.ptr < s.len →
    ∃ t, exec (.last g) s = .next t ∧
      t.acc = s.acc ||| BitVec.ofNat 64 ((g.toNat * 2 ^ s.off) % 2 ^ Config.width s.opq) ∧
      t.off = s.off + 7 ∧ t.cnt = s.cnt + 1 ∧ t.ptr = s.ptr + 1 ∧ t.cursor = t.ptr

/-- 42_byte_serial_machine.md R163: a BYTE step at the end of the buffer, with no host move pending or the host waiting,
makes no read and fails. -/
def Obligations.ByteStepAtEndOfBufferFails : Prop :=
  ∀ s : State, s.phase = .reading → s.len ≤ s.ptr →
    (s.host = [] →
      step s = .next { s with status := .error .unexpectedEndOfBuffer, value := 0, phase := .failed } ∧ stepRead s = none) ∧
    ∀ moves, s.host = .wait :: moves →
      step s = .next { s with status := .error .unexpectedEndOfBuffer, value := 0, phase := .failed, host := moves } ∧
      stepRead s = none

/-- A byte class executed where `ptr >= LEN` takes the end-of-buffer failure. R163 gives the BYTE step there, and no byte
class; that CONT and LAST take it is the model's reading, log entry 13. -/
def Obligations.ByteClassAtEndOfBufferFails : Prop :=
  ∀ s : State, s.phase = .reading → s.len ≤ s.ptr →
    ∀ g : Segment,
      exec (.cont g) s = .next { s with status := .error .unexpectedEndOfBuffer, value := 0, phase := .failed } ∧
      exec (.last g) s = .next { s with status := .error .unexpectedEndOfBuffer, value := 0, phase := .failed }

/-- 42_byte_serial_machine.md section 1 (R161, the spec's decision D2): a BYTE step is enabled in READING only; outside it a
byte class is refused, and only there. -/
def Obligations.ByteClassRefusedExactlyOutsideReading : Prop :=
  ∀ (g : Segment) (s : State),
    (exec (.cont g) s = .refused .byteOutsideReading ↔ s.phase ≠ .reading) ∧
    (exec (.last g) s = .refused .byteOutsideReading ↔ s.phase ≠ .reading)

/-- The frame of the byte classes (42_byte_serial_machine.md section 2): the buffer, its length, the host's moves and `opq`
are unchanged; the cursor, the value and the status change at the end only; CONT never moves the cursor; a step that fails
leaves the working registers. -/
def Obligations.ByteClassFrame : Prop :=
  ∀ (g : Segment) (s t : State),
    (exec (.cont g) s = .next t →
      t.mem = s.mem ∧ (∀ a, t.byteAt a = s.byteAt a) ∧ t.len = s.len ∧ t.host = s.host ∧ t.opq = s.opq ∧
      t.cursor = s.cursor ∧ (t.phase = .reading → t.value = s.value ∧ t.status = s.status) ∧
      (t.phase ≠ .reading → t.acc = s.acc ∧ t.off = s.off ∧ t.cnt = s.cnt ∧ t.ptr = s.ptr)) ∧
    (exec (.last g) s = .next t →
      t.mem = s.mem ∧ (∀ a, t.byteAt a = s.byteAt a) ∧ t.len = s.len ∧ t.host = s.host ∧ t.opq = s.opq ∧
      t.phase ≠ .reading ∧
      (t.phase = .failed →
        t.cursor = s.cursor ∧ t.acc = s.acc ∧ t.off = s.off ∧ t.cnt = s.cnt ∧ t.ptr = s.ptr) ∧
      (t.phase = .done → t.status = .ok ∧ t.ptr = s.ptr + 1 ∧ t.cnt = s.cnt + 1 ∧ t.off = s.off + 7))

/-- 42_byte_serial_machine.md R169: in READING the block's step has one outcome, which ends the operation or raises `cnt` by
one and leaves it at most MAXB - 1; the operation ends after at most MAXB steps. -/
def Obligations.ReadingAlwaysProgresses : Prop :=
  ∀ s : State, Inv s → s.phase = .reading → s.host = [] →
    (∃ t, step s = .next t ∧
      (t.phase = .done ∨ t.phase = .failed ∨
        (t.phase = .reading ∧ t.cnt = s.cnt + 1 ∧ t.cnt + 1 ≤ Config.maxb t.opq))) ∧
    ∃ n t, s.cnt + n ≤ Config.maxb s.opq ∧ steps n s = .next t ∧ (t.phase = .done ∨ t.phase = .failed)

/-- 42_byte_serial_machine.md R170 (marked derived there): START and then BYTE steps until READING is left reach, within MAXB
steps, what the whole operation reaches in one. -/
def Obligations.ByteSerialRunAgreesWithOperation : Prop :=
  ∀ (op : OpBit) (s : State), s.phase ≠ .reading → s.host = [] →
    ∃ n t u, n ≤ Config.maxb op ∧ steps n (startOperation op s) = .next t ∧ exec (decodeOp op) s = .next u ∧
      view t = view u ∧ t.phase ≠ .reading ∧
      ∀ m < n, ∃ r, steps m (startOperation op s) = .next r ∧ r.phase = .reading

/-- 42_byte_serial_machine.md R171: in READING, value, status and cursor still hold what they held before START. The second
clause, that a failure leaves value 0 and the cursor, is 60_exceptions.md section 5, the spec's decisions D6 and D9 (log
entry 11). -/
def Obligations.NothingPartialEscapes : Prop :=
  (∀ s t : State, step s = .next t → t.phase = .reading →
    t.value = s.value ∧ t.status = s.status ∧ t.cursor = s.cursor) ∧
  ∀ s t : State, s.phase = .reading → step s = .next t → t.phase = .failed → t.value = 0 ∧ t.cursor = s.cursor

/-- 20_memory.md R56 (the spec's decision D22): the reads of an operation are c0, c0 + 1, ... in order, below LEN; as many as
the encoded integer has bytes, MAXB on a too-long failure, what remains on an end-of-buffer failure. -/
def Obligations.ReadsAreInOrderAndCounted : Prop :=
  ∀ (op : OpBit) (s : State), s.phase ≠ .reading → s.host = [] →
    ∃ r u, exec (decodeOp op) s = .next u ∧
      readTrace (Config.maxb op) (startOperation op s) = List.range' s.cursor r ∧
      (r ≠ 0 → s.cursor + r ≤ s.len) ∧
      (u.phase = .done → u.cursor = s.cursor + r) ∧
      (u.status = .error (tooLong op) → r = Config.maxb op) ∧
      (u.status = .error .unexpectedEndOfBuffer → r = s.len - s.cursor ∧ r < Config.maxb op)

/-- 70_reset_and_hazards.md R236: every operation ends, whatever the buffer holds, after at most MAXB byte reads, as one
transition and as a run of BYTE steps of any length. -/
def Obligations.EveryOperationEndsWithinMaxbReads : Prop :=
  ∀ (op : OpBit) (s : State), s.phase ≠ .reading → s.host = [] →
    (∃ u, exec (decodeOp op) s = .next u ∧ (u.phase = .done ∨ u.phase = .failed)) ∧
    (∃ t, steps (Config.maxb op) (startOperation op s) = .next t ∧ (t.phase = .done ∨ t.phase = .failed)) ∧
    ∀ n, (readTrace n (startOperation op s)).length ≤ Config.maxb op

/-! ### The step and the host -/

/-- A step runs the decoded instruction: the byte at `ptr` when the block moves in READING, the operation of the host's next
move otherwise; the host's move is taken and nothing else is done around it. -/
def Obligations.StepRunsTheDecodedInstruction : Prop :=
  (∀ (s : State) (i : Instr) (rest : List Byte), s.phase = .reading → s.ptr < s.len →
    decode .byte (s.byteAt s.ptr :: rest) = .ok (i, rest) →
    (s.host = [] → step s = exec i s) ∧
    ∀ moves, s.host = .wait :: moves → step s = exec i { s with host := moves }) ∧
  ∀ (s : State) (op : OpBit) (moves : List HostMove), s.host = .operation op :: moves →
    step s = exec (decodeOp op) { s with host := moves }

/-- 42_byte_serial_machine.md section 2 (R162, the spec's decision D20): what START writes, and that it is refused in READING
(R232, decision D12). -/
def Obligations.StartBeginsAnOperation : Prop :=
  ∀ (s : State) (op : OpBit) (moves : List HostMove), s.host = .start op :: moves →
    (s.phase ≠ .reading →
      step s = .next { s with
        opq := op, acc := 0, off := 0, cnt := 0, ptr := s.cursor, phase := .reading, host := moves }) ∧
    (s.phase = .reading → step s = .refused .operationWhileReading)

/-- 42_byte_serial_machine.md section 2 (R168, the spec's decision D12): `set_cursor(n)` writes the cursor and nothing else,
and is refused in READING (70_reset_and_hazards.md section 3). -/
def Obligations.SetCursorWritesOnlyTheCursor : Prop :=
  ∀ (s : State) (n : Nat) (moves : List HostMove), s.host = .setCursor n :: moves →
    (s.phase ≠ .reading → step s = .next { s with cursor := n, host := moves }) ∧
    (s.phase = .reading → step s = .refused .cursorWriteWhileReading)

/-- 70_reset_and_hazards.md section 1 (R220 to R222, the spec's decisions D11, D17): reset, legal in every phase, puts every
register to its reset value and leaves the buffer and its length. -/
def Obligations.ResetMoveRestoresResetValues : Prop :=
  ∀ (s : State) (moves : List HostMove), s.host = .reset :: moves →
    step s = .next { State.reset with mem := s.mem, len := s.len, host := moves }

/-- 10_state.md section 8 (R32, the spec's decision D11). The model's own part, no rule: no buffer presented and no move
pending (log entries 3 and 4). -/
def Obligations.ResetValues : Prop :=
  State.reset.phase = .idle ∧ State.reset.cursor = 0 ∧ State.reset.value = 0 ∧ State.reset.status = .ok ∧
  State.reset.opq = 0 ∧ State.reset.acc = 0 ∧ State.reset.off = 0 ∧ State.reset.ptr = 0 ∧ State.reset.cnt = 0 ∧
  State.reset.len = 0 ∧ State.reset.mem = [] ∧ State.reset.host = []

/-- 70_reset_and_hazards.md section 2 and 3 (R223, R224, R231): a presented buffer reads as the bytes presented, an edit
changes one byte and no other, and both are refused in READING. -/
def Obligations.HostBufferWritesReadBack : Prop :=
  (∀ (s : State) (bs : List Byte) (moves : List HostMove), s.host = .present bs :: moves →
    (s.phase ≠ .reading →
      ∃ t, step s = .next t ∧ t.len = bs.length ∧ holdsAt t 0 bs = true ∧
        { view t with mem := s.mem, len := s.len } = { view s with host := moves }) ∧
    (s.phase = .reading → step s = .refused .bufferWriteWhileReading)) ∧
  ∀ (s : State) (a : Nat) (b : Byte) (moves : List HostMove), s.host = .edit a b :: moves → MemoryOk s → a < s.len →
    (s.phase ≠ .reading →
      ∃ t, step s = .next t ∧ t.byteAt a = b ∧ (∀ x, x ≠ a → t.byteAt x = s.byteAt x) ∧
        { view t with mem := s.mem } = { view s with host := moves }) ∧
    (s.phase = .reading → step s = .refused .bufferWriteWhileReading)

/-- 10_state.md section 9 (R33, the spec's decision D12): a host read changes nothing, and where the host has no right to read
it is refused. The model's own part, log entry 12: `value` may be read in IDLE and FAILED too, where R33's column gives DONE
and its parenthesis says what the register reads as; and a read is a move that takes a step of its own. -/
def Obligations.HostReadsChangeNothing : Prop :=
  ∀ (s : State) (r : HostReg) (moves : List HostMove), s.host = .read r :: moves →
    let allowed := r = .phase ∨ (s.phase ≠ .reading ∧ (r = .cursor ∨ r = .value)) ∨
      (r = .status ∧ (s.phase = .done ∨ s.phase = .failed))
    (allowed → step s = .next { s with host := moves }) ∧
    (¬ allowed → step s = .refused (.readNotAllowed r))

/-- 10_state.md section 9 (R33, the spec's decision D12): what a read answers where it is allowed. `value` reads as 0 in
FAILED and after reset. That `value` may be read there is the model's reading, log entry 12;
the number that stands for a phase is the model's choice, log entry 7. -/
def Obligations.HostReadAnswers : Prop :=
  ∀ s : State, Inv s →
    (∃ n, hostRead .phase s = some n ∧ ∀ s' : State, hostRead .phase s' = some n → s'.phase = s.phase) ∧
    (s.phase ≠ .reading → hostRead .cursor s = some s.cursor) ∧
    (s.phase = .done → hostRead .value s = some s.value.toNat ∧ hostRead .status s = some 0) ∧
    (s.phase = .failed → hostRead .value s = some 0 ∧
      (hostRead .status s = some 1 ∨ hostRead .status s = some (2 + s.opq.toNat))) ∧
    (s.phase = .idle → hostRead .value s = some 0)

/-- 60_exceptions.md section 7 (R211, the spec's decision D18): between operations the block keeps its whole state. -/
def Obligations.IdleBlockKeepsItsState : Prop :=
  ∀ s : State, s.phase ≠ .reading →
    (s.host = [] → step s = .next s) ∧ ∀ moves, s.host = .wait :: moves → step s = .next { s with host := moves }

/-! ### Whole-machine rules -/

/-- The invariant of 10_state.md R34 holds after reset. -/
def Obligations.InvariantHoldsAtReset : Prop := Inv State.reset

/-- 10_state.md section 10 (R34, marked derived there), with the canonical form of the buffer and what each phase holds: from
every state, reachable or not, that meets the invariant, a step gives one that meets it. -/
def Obligations.EveryStepKeepsTheInvariant : Prop :=
  ∀ s t : State, Inv s → step s = .next t → Inv t

/-- 20_memory.md section 4 (R55) and 60_exceptions.md section 1 (R190): the block never reads outside 0..LEN-1, so no step
and no instruction faults. -/
def Obligations.NoStepFaults : Prop :=
  ∀ (s : State) (f : Fault), step s ≠ .fault f ∧ ∀ i : Instr, exec i s ≠ .fault f

/-- 20_memory.md section 4 (R54) and 70_reset_and_hazards.md section 3 (R231): only the host changes the buffer or its
length, by presenting or editing it, and only when no operation is READING. -/
def Obligations.OnlyTheHostChangesTheBuffer : Prop :=
  ∀ s t : State, step s = .next t → (t.mem ≠ s.mem ∨ t.len ≠ s.len) →
    s.phase ≠ .reading ∧
    ((∃ bs moves, s.host = .present bs :: moves) ∨ ∃ a b moves, s.host = .edit a b :: moves ∧ a < s.len ∧ t.len = s.len)

/-- 10_state.md section 3 (R24, R26): in a state that meets the invariant (in READING `ptr` is not below the cursor), only
these events move the cursor: a successful end of an operation, `set_cursor`, reset. -/
def Obligations.OnlySuccessHostOrResetMovesTheCursor : Prop :=
  ∀ s t : State, Inv s → step s = .next t → t.cursor ≠ s.cursor →
    (t.phase = .done ∧ t.status = .ok ∧ s.cursor < t.cursor ∧ (blockMoves s = true ∨ ∃ op moves, s.host = .operation op :: moves)) ∨
    (s.phase ≠ .reading ∧ ∃ n moves, s.host = .setCursor n :: moves) ∨ ∃ moves, s.host = .reset :: moves

/-- 70_reset_and_hazards.md section 4 (R235, marked derived there): in an instance of AW bits with LEN at most 2^AW - 1, no
step of the block or of an operation forms an index that does not fit. -/
def Obligations.NoIndexOutgrowsTheInstance : Prop :=
  ∀ (aw : Nat) (s t : State), Inv s → s.len < 2 ^ aw → s.cursor < 2 ^ aw → s.ptr < 2 ^ aw →
    (blockMoves s = true ∨ (∃ op moves, s.host = .operation op :: moves) ∨ ∃ op moves, s.host = .start op :: moves) →
    step s = .next t → t.cursor < 2 ^ aw ∧ t.ptr < 2 ^ aw ∧ t.off ≤ 70 ∧ t.cnt ≤ 10

/-- 10_state.md section 7 (R31): outside READING nothing depends on the hidden registers: two states with the same view take
steps with the same view, and a START gives the same state. -/
def Obligations.HiddenRegistersHaveNoEffect : Prop :=
  ∀ s s' t : State, s.phase ≠ .reading → view s = view s' → step s = .next t →
    (∃ t', step s' = .next t' ∧ view t' = view t) ∧
    ∀ op moves, s.host = .start op :: moves → step s' = .next t
end

