-- ==== Sys2Proof/Laws/Memory.lean ====
section
/-! SUPPORT. The buffer: every operation keeps the canonical form, and reads see what was written. -/

namespace Sys2Proof.Machine

theorem Memory.wfFrom_mono {m : List Host.Cell} {lo lo' : Nat} (h : lo' ≤ lo) (hm : Memory.wfFrom lo m = true) :
    Memory.wfFrom lo' m = true := by
  cases m with
  | nil => rfl
  | cons c rest =>
    simp only [Memory.wfFrom, Bool.and_eq_true, decide_eq_true_eq] at hm ⊢
    exact ⟨⟨by omega, hm.1.2⟩, hm.2⟩

/-- Below the least listed index the buffer is unlisted. -/
theorem Memory.get_of_lt {m : List Host.Cell} {lo a : Nat} (hm : Memory.wfFrom lo m = true) (h : a < lo) :
    Memory.get m a = Memory.unlisted := by
  induction m generalizing lo with
  | nil => rfl
  | cons c rest ih =>
    simp only [Memory.wfFrom, Bool.and_eq_true, decide_eq_true_eq] at hm
    rw [Memory.get, if_neg (by omega)]
    exact ih hm.2 (by omega)

theorem Memory.wfFrom_cons {rest : List Host.Cell} {lo a : Nat} {b : Byte} (h : lo ≤ a)
    (hr : Memory.wfFrom (a + 1) rest = true) : Memory.wfFrom lo (Memory.cons a b rest) = true := by
  unfold Memory.cons
  split
  · exact Memory.wfFrom_mono (by omega) hr
  · simp [Memory.wfFrom, *]

theorem Memory.get_cons {rest : List Host.Cell} {a : Nat} {b : Byte} (hr : Memory.wfFrom (a + 1) rest = true)
    (x : Nat) : Memory.get (Memory.cons a b rest) x = if x = a then b else Memory.get rest x := by
  unfold Memory.cons
  split
  · split
    · subst_vars
      exact Memory.get_of_lt hr (by omega)
    · rfl
  · rfl

theorem Memory.below_cell {n : Nat} {c : Host.Cell} {rest : List Host.Cell} :
    Memory.below n (c :: rest) = true ↔ c.1 < n ∧ Memory.below n rest = true := by
  rw [Memory.below, List.all_cons, Bool.and_eq_true, decide_eq_true_eq, Memory.below]

theorem Memory.below_cons {rest : List Host.Cell} {n a : Nat} {b : Byte} (ha : a < n)
    (hr : Memory.below n rest = true) : Memory.below n (Memory.cons a b rest) = true := by
  unfold Memory.cons
  split
  · exact hr
  · exact Memory.below_cell.mpr ⟨ha, hr⟩

theorem Memory.wfFrom_set {m : List Host.Cell} {lo : Nat} (a : Nat) (b : Byte) (h : lo ≤ a)
    (hm : Memory.wfFrom lo m = true) : Memory.wfFrom lo (Memory.set m a b) = true := by
  induction m generalizing lo with
  | nil => exact Memory.wfFrom_cons h rfl
  | cons c rest ih =>
    have hm' := hm
    simp only [Memory.wfFrom, Bool.and_eq_true, decide_eq_true_eq] at hm
    unfold Memory.set
    split
    · refine Memory.wfFrom_cons h ?_
      simp only [Memory.wfFrom, Bool.and_eq_true, decide_eq_true_eq]
      exact ⟨⟨by omega, hm.1.2⟩, hm.2⟩
    · split
      · subst_vars
        exact Memory.wfFrom_cons h hm.2
      · simp only [Memory.wfFrom, Bool.and_eq_true, decide_eq_true_eq]
        exact ⟨hm.1, ih (by omega) hm.2⟩

/-- A write keeps the canonical form. -/
theorem Memory.wf_set {m : List Host.Cell} (a : Nat) (b : Byte) (hm : Memory.wf m = true) :
    Memory.wf (Memory.set m a b) = true :=
  Memory.wfFrom_set a b (Nat.zero_le a) hm

theorem Memory.below_set {m : List Host.Cell} {n a : Nat} (b : Byte) (ha : a < n) (hm : Memory.below n m = true) :
    Memory.below n (Memory.set m a b) = true := by
  induction m with
  | nil => exact Memory.below_cons ha rfl
  | cons c rest ih =>
    have hc := Memory.below_cell.mp hm
    unfold Memory.set
    split
    · exact Memory.below_cons ha hm
    · split
      · exact Memory.below_cons ha hc.2
      · exact Memory.below_cell.mpr ⟨hc.1, ih hc.2⟩

/-- Read after write: the byte written there, the byte before elsewhere. -/
theorem Memory.get_set {m : List Host.Cell} {lo : Nat} (a : Nat) (b : Byte) (hm : Memory.wfFrom lo m = true) (x : Nat) :
    Memory.get (Memory.set m a b) x = if x = a then b else Memory.get m x := by
  induction m generalizing lo with
  | nil => exact Memory.get_cons rfl x
  | cons c rest ih =>
    have hm' := hm
    simp only [Memory.wfFrom, Bool.and_eq_true, decide_eq_true_eq] at hm
    unfold Memory.set
    split
    · refine Memory.get_cons ?_ x
      simp only [Memory.wfFrom, Bool.and_eq_true, decide_eq_true_eq]
      exact ⟨⟨by omega, hm.1.2⟩, hm.2⟩
    · split
      · next h =>
        subst h
        rw [Memory.get_cons hm.2 x, Memory.get]
        split <;> rfl
      · rw [Memory.get, Memory.get, ih hm.2]
        split <;> split <;> first | rfl | omega

theorem Memory.wfFrom_ofBytes (a : Nat) (bs : List Byte) : Memory.wfFrom a (Memory.ofBytes a bs) = true := by
  induction bs generalizing a with
  | nil => rfl
  | cons b bs ih => exact Memory.wfFrom_cons (Nat.le_refl a) (ih (a + 1))

/-- A presented buffer is in canonical form. -/
theorem Memory.wf_ofBytes (bs : List Byte) : Memory.wf (Memory.ofBytes 0 bs) = true := Memory.wfFrom_ofBytes 0 bs

theorem Memory.below_ofBytes (a n : Nat) (bs : List Byte) (h : a + bs.length ≤ n) :
    Memory.below n (Memory.ofBytes a bs) = true := by
  induction bs generalizing a with
  | nil => rfl
  | cons b bs ih =>
    simp only [List.length_cons] at h
    exact Memory.below_cons (by omega) (ih (a + 1) (by omega))

/-- A presented buffer reads as the bytes presented. -/
theorem Memory.get_ofBytes (a : Nat) (bs : List Byte) (i : Nat) :
    Memory.get (Memory.ofBytes a bs) (a + i) = bs.getD i Memory.unlisted := by
  induction bs generalizing a i with
  | nil => simp [Memory.ofBytes, Memory.get]
  | cons b bs ih =>
    rw [Memory.ofBytes, Memory.get_cons (Memory.wfFrom_ofBytes (a + 1) bs)]
    cases i with
    | zero => simp
    | succ j =>
      rw [if_neg (by omega), show a + (j + 1) = a + 1 + j by omega, ih (a + 1) j]
      simp

/-- The buffer after reset is in canonical form. -/
theorem Memory.wf_reset : Memory.wf State.reset.mem = true := rfl

end Sys2Proof.Machine
end

