-- ==== Sys2Proof/Laws/State.lean ====
section
/-! SUPPORT. One lemma per field per update of the state, so that no proof unfolds a record update. -/

namespace Sys2Proof.Machine

@[simp] theorem raise_phase (k : ErrorKind) (s : State) : (raise k s).phase = .failed := rfl
@[simp] theorem raise_opq (k : ErrorKind) (s : State) : (raise k s).opq = s.opq := rfl
@[simp] theorem raise_acc (k : ErrorKind) (s : State) : (raise k s).acc = s.acc := rfl
@[simp] theorem raise_off (k : ErrorKind) (s : State) : (raise k s).off = s.off := rfl
@[simp] theorem raise_ptr (k : ErrorKind) (s : State) : (raise k s).ptr = s.ptr := rfl
@[simp] theorem raise_cnt (k : ErrorKind) (s : State) : (raise k s).cnt = s.cnt := rfl
@[simp] theorem raise_cursor (k : ErrorKind) (s : State) : (raise k s).cursor = s.cursor := rfl
@[simp] theorem raise_value (k : ErrorKind) (s : State) : (raise k s).value = 0 := rfl
@[simp] theorem raise_status (k : ErrorKind) (s : State) : (raise k s).status = .error k := rfl
@[simp] theorem raise_mem (k : ErrorKind) (s : State) : (raise k s).mem = s.mem := rfl
@[simp] theorem raise_len (k : ErrorKind) (s : State) : (raise k s).len = s.len := rfl
@[simp] theorem raise_host (k : ErrorKind) (s : State) : (raise k s).host = s.host := rfl

@[simp] theorem succeed_phase (v : Word) (c : Nat) (s : State) : (succeed v c s).phase = .done := rfl
@[simp] theorem succeed_opq (v : Word) (c : Nat) (s : State) : (succeed v c s).opq = s.opq := rfl
@[simp] theorem succeed_acc (v : Word) (c : Nat) (s : State) : (succeed v c s).acc = s.acc := rfl
@[simp] theorem succeed_off (v : Word) (c : Nat) (s : State) : (succeed v c s).off = s.off := rfl
@[simp] theorem succeed_ptr (v : Word) (c : Nat) (s : State) : (succeed v c s).ptr = s.ptr := rfl
@[simp] theorem succeed_cnt (v : Word) (c : Nat) (s : State) : (succeed v c s).cnt = s.cnt := rfl
@[simp] theorem succeed_cursor (v : Word) (c : Nat) (s : State) : (succeed v c s).cursor = c := rfl
@[simp] theorem succeed_value (v : Word) (c : Nat) (s : State) : (succeed v c s).value = v := rfl
@[simp] theorem succeed_status (v : Word) (c : Nat) (s : State) : (succeed v c s).status = .ok := rfl
@[simp] theorem succeed_mem (v : Word) (c : Nat) (s : State) : (succeed v c s).mem = s.mem := rfl
@[simp] theorem succeed_len (v : Word) (c : Nat) (s : State) : (succeed v c s).len = s.len := rfl
@[simp] theorem succeed_host (v : Word) (c : Nat) (s : State) : (succeed v c s).host = s.host := rfl

@[simp] theorem startOperation_phase (op : OpBit) (s : State) : (startOperation op s).phase = .reading := rfl
@[simp] theorem startOperation_opq (op : OpBit) (s : State) : (startOperation op s).opq = op := rfl
@[simp] theorem startOperation_acc (op : OpBit) (s : State) : (startOperation op s).acc = 0 := rfl
@[simp] theorem startOperation_off (op : OpBit) (s : State) : (startOperation op s).off = 0 := rfl
@[simp] theorem startOperation_ptr (op : OpBit) (s : State) : (startOperation op s).ptr = s.cursor := rfl
@[simp] theorem startOperation_cnt (op : OpBit) (s : State) : (startOperation op s).cnt = 0 := rfl
@[simp] theorem startOperation_cursor (op : OpBit) (s : State) : (startOperation op s).cursor = s.cursor := rfl
@[simp] theorem startOperation_value (op : OpBit) (s : State) : (startOperation op s).value = s.value := rfl
@[simp] theorem startOperation_status (op : OpBit) (s : State) : (startOperation op s).status = s.status := rfl
@[simp] theorem startOperation_mem (op : OpBit) (s : State) : (startOperation op s).mem = s.mem := rfl
@[simp] theorem startOperation_len (op : OpBit) (s : State) : (startOperation op s).len = s.len := rfl
@[simp] theorem startOperation_host (op : OpBit) (s : State) : (startOperation op s).host = s.host := rfl

@[simp] theorem advance_phase (g : Segment) (s : State) : (advance g s).phase = s.phase := rfl
@[simp] theorem advance_opq (g : Segment) (s : State) : (advance g s).opq = s.opq := rfl
@[simp] theorem advance_acc (g : Segment) (s : State) : (advance g s).acc = accumulate s.opq s.acc g s.off := rfl
@[simp] theorem advance_off (g : Segment) (s : State) : (advance g s).off = s.off + 7 := rfl
@[simp] theorem advance_ptr (g : Segment) (s : State) : (advance g s).ptr = s.ptr + 1 := rfl
@[simp] theorem advance_cnt (g : Segment) (s : State) : (advance g s).cnt = s.cnt + 1 := rfl
@[simp] theorem advance_cursor (g : Segment) (s : State) : (advance g s).cursor = s.cursor := rfl
@[simp] theorem advance_value (g : Segment) (s : State) : (advance g s).value = s.value := rfl
@[simp] theorem advance_status (g : Segment) (s : State) : (advance g s).status = s.status := rfl
@[simp] theorem advance_mem (g : Segment) (s : State) : (advance g s).mem = s.mem := rfl
@[simp] theorem advance_len (g : Segment) (s : State) : (advance g s).len = s.len := rfl
@[simp] theorem advance_host (g : Segment) (s : State) : (advance g s).host = s.host := rfl

@[simp] theorem complete_phase (s : State) : (complete s).phase = .done := rfl
@[simp] theorem complete_opq (s : State) : (complete s).opq = s.opq := rfl
@[simp] theorem complete_acc (s : State) : (complete s).acc = s.acc := rfl
@[simp] theorem complete_off (s : State) : (complete s).off = s.off := rfl
@[simp] theorem complete_ptr (s : State) : (complete s).ptr = s.ptr := rfl
@[simp] theorem complete_cnt (s : State) : (complete s).cnt = s.cnt := rfl
@[simp] theorem complete_cursor (s : State) : (complete s).cursor = s.ptr := rfl
@[simp] theorem complete_value (s : State) : (complete s).value = pack s.opq s.acc := rfl
@[simp] theorem complete_status (s : State) : (complete s).status = .ok := rfl
@[simp] theorem complete_mem (s : State) : (complete s).mem = s.mem := rfl
@[simp] theorem complete_len (s : State) : (complete s).len = s.len := rfl
@[simp] theorem complete_host (s : State) : (complete s).host = s.host := rfl

@[simp] theorem resetBlock_phase (s : State) : (resetBlock s).phase = .idle := rfl
@[simp] theorem resetBlock_opq (s : State) : (resetBlock s).opq = 0 := rfl
@[simp] theorem resetBlock_acc (s : State) : (resetBlock s).acc = 0 := rfl
@[simp] theorem resetBlock_off (s : State) : (resetBlock s).off = 0 := rfl
@[simp] theorem resetBlock_ptr (s : State) : (resetBlock s).ptr = 0 := rfl
@[simp] theorem resetBlock_cnt (s : State) : (resetBlock s).cnt = 0 := rfl
@[simp] theorem resetBlock_cursor (s : State) : (resetBlock s).cursor = 0 := rfl
@[simp] theorem resetBlock_value (s : State) : (resetBlock s).value = 0 := rfl
@[simp] theorem resetBlock_status (s : State) : (resetBlock s).status = .ok := rfl
@[simp] theorem resetBlock_mem (s : State) : (resetBlock s).mem = s.mem := rfl
@[simp] theorem resetBlock_len (s : State) : (resetBlock s).len = s.len := rfl
@[simp] theorem resetBlock_host (s : State) : (resetBlock s).host = s.host := rfl

@[simp] theorem setCursor_phase (n : Nat) (s : State) : (setCursor n s).phase = s.phase := rfl
@[simp] theorem setCursor_opq (n : Nat) (s : State) : (setCursor n s).opq = s.opq := rfl
@[simp] theorem setCursor_acc (n : Nat) (s : State) : (setCursor n s).acc = s.acc := rfl
@[simp] theorem setCursor_off (n : Nat) (s : State) : (setCursor n s).off = s.off := rfl
@[simp] theorem setCursor_ptr (n : Nat) (s : State) : (setCursor n s).ptr = s.ptr := rfl
@[simp] theorem setCursor_cnt (n : Nat) (s : State) : (setCursor n s).cnt = s.cnt := rfl
@[simp] theorem setCursor_cursor (n : Nat) (s : State) : (setCursor n s).cursor = n := rfl
@[simp] theorem setCursor_value (n : Nat) (s : State) : (setCursor n s).value = s.value := rfl
@[simp] theorem setCursor_status (n : Nat) (s : State) : (setCursor n s).status = s.status := rfl
@[simp] theorem setCursor_mem (n : Nat) (s : State) : (setCursor n s).mem = s.mem := rfl
@[simp] theorem setCursor_len (n : Nat) (s : State) : (setCursor n s).len = s.len := rfl
@[simp] theorem setCursor_host (n : Nat) (s : State) : (setCursor n s).host = s.host := rfl

@[simp] theorem present_phase (bs : List Byte) (s : State) : (present bs s).phase = s.phase := rfl
@[simp] theorem present_opq (bs : List Byte) (s : State) : (present bs s).opq = s.opq := rfl
@[simp] theorem present_acc (bs : List Byte) (s : State) : (present bs s).acc = s.acc := rfl
@[simp] theorem present_off (bs : List Byte) (s : State) : (present bs s).off = s.off := rfl
@[simp] theorem present_ptr (bs : List Byte) (s : State) : (present bs s).ptr = s.ptr := rfl
@[simp] theorem present_cnt (bs : List Byte) (s : State) : (present bs s).cnt = s.cnt := rfl
@[simp] theorem present_cursor (bs : List Byte) (s : State) : (present bs s).cursor = s.cursor := rfl
@[simp] theorem present_value (bs : List Byte) (s : State) : (present bs s).value = s.value := rfl
@[simp] theorem present_status (bs : List Byte) (s : State) : (present bs s).status = s.status := rfl
@[simp] theorem present_mem (bs : List Byte) (s : State) : (present bs s).mem = Memory.ofBytes 0 bs := rfl
@[simp] theorem present_len (bs : List Byte) (s : State) : (present bs s).len = bs.length := rfl
@[simp] theorem present_host (bs : List Byte) (s : State) : (present bs s).host = s.host := rfl

@[simp] theorem edit_phase (a : Nat) (b : Byte) (s : State) : (edit a b s).phase = s.phase := rfl
@[simp] theorem edit_opq (a : Nat) (b : Byte) (s : State) : (edit a b s).opq = s.opq := rfl
@[simp] theorem edit_acc (a : Nat) (b : Byte) (s : State) : (edit a b s).acc = s.acc := rfl
@[simp] theorem edit_off (a : Nat) (b : Byte) (s : State) : (edit a b s).off = s.off := rfl
@[simp] theorem edit_ptr (a : Nat) (b : Byte) (s : State) : (edit a b s).ptr = s.ptr := rfl
@[simp] theorem edit_cnt (a : Nat) (b : Byte) (s : State) : (edit a b s).cnt = s.cnt := rfl
@[simp] theorem edit_cursor (a : Nat) (b : Byte) (s : State) : (edit a b s).cursor = s.cursor := rfl
@[simp] theorem edit_value (a : Nat) (b : Byte) (s : State) : (edit a b s).value = s.value := rfl
@[simp] theorem edit_status (a : Nat) (b : Byte) (s : State) : (edit a b s).status = s.status := rfl
@[simp] theorem edit_mem (a : Nat) (b : Byte) (s : State) : (edit a b s).mem = Memory.set s.mem a b := rfl
@[simp] theorem edit_len (a : Nat) (b : Byte) (s : State) : (edit a b s).len = s.len := rfl
@[simp] theorem edit_host (a : Nat) (b : Byte) (s : State) : (edit a b s).host = s.host := rfl

@[simp] theorem takeMove_phase (r : List HostMove) (s : State) : (takeMove r s).phase = s.phase := rfl
@[simp] theorem takeMove_opq (r : List HostMove) (s : State) : (takeMove r s).opq = s.opq := rfl
@[simp] theorem takeMove_acc (r : List HostMove) (s : State) : (takeMove r s).acc = s.acc := rfl
@[simp] theorem takeMove_off (r : List HostMove) (s : State) : (takeMove r s).off = s.off := rfl
@[simp] theorem takeMove_ptr (r : List HostMove) (s : State) : (takeMove r s).ptr = s.ptr := rfl
@[simp] theorem takeMove_cnt (r : List HostMove) (s : State) : (takeMove r s).cnt = s.cnt := rfl
@[simp] theorem takeMove_cursor (r : List HostMove) (s : State) : (takeMove r s).cursor = s.cursor := rfl
@[simp] theorem takeMove_value (r : List HostMove) (s : State) : (takeMove r s).value = s.value := rfl
@[simp] theorem takeMove_status (r : List HostMove) (s : State) : (takeMove r s).status = s.status := rfl
@[simp] theorem takeMove_mem (r : List HostMove) (s : State) : (takeMove r s).mem = s.mem := rfl
@[simp] theorem takeMove_len (r : List HostMove) (s : State) : (takeMove r s).len = s.len := rfl
@[simp] theorem takeMove_host (r : List HostMove) (s : State) : (takeMove r s).host = r := rfl

@[simp] theorem placeOperation_phase (op : OpBit) (s : State) : (placeOperation op s).phase = s.phase := rfl
@[simp] theorem placeOperation_opq (op : OpBit) (s : State) : (placeOperation op s).opq = s.opq := rfl
@[simp] theorem placeOperation_acc (op : OpBit) (s : State) : (placeOperation op s).acc = s.acc := rfl
@[simp] theorem placeOperation_off (op : OpBit) (s : State) : (placeOperation op s).off = s.off := rfl
@[simp] theorem placeOperation_ptr (op : OpBit) (s : State) : (placeOperation op s).ptr = s.ptr := rfl
@[simp] theorem placeOperation_cnt (op : OpBit) (s : State) : (placeOperation op s).cnt = s.cnt := rfl
@[simp] theorem placeOperation_cursor (op : OpBit) (s : State) : (placeOperation op s).cursor = s.cursor := rfl
@[simp] theorem placeOperation_value (op : OpBit) (s : State) : (placeOperation op s).value = s.value := rfl
@[simp] theorem placeOperation_status (op : OpBit) (s : State) : (placeOperation op s).status = s.status := rfl
@[simp] theorem placeOperation_mem (op : OpBit) (s : State) : (placeOperation op s).mem = s.mem := rfl
@[simp] theorem placeOperation_len (op : OpBit) (s : State) : (placeOperation op s).len = s.len := rfl
@[simp] theorem placeOperation_host (op : OpBit) (s : State) : (placeOperation op s).host = .operation op :: s.host := rfl

@[simp] theorem reset_phase : State.reset.phase = .idle := rfl
@[simp] theorem reset_opq : State.reset.opq = 0 := rfl
@[simp] theorem reset_acc : State.reset.acc = 0 := rfl
@[simp] theorem reset_off : State.reset.off = 0 := rfl
@[simp] theorem reset_ptr : State.reset.ptr = 0 := rfl
@[simp] theorem reset_cnt : State.reset.cnt = 0 := rfl
@[simp] theorem reset_cursor : State.reset.cursor = 0 := rfl
@[simp] theorem reset_value : State.reset.value = 0 := rfl
@[simp] theorem reset_status : State.reset.status = .ok := rfl
@[simp] theorem reset_mem : State.reset.mem = [] := rfl
@[simp] theorem reset_len : State.reset.len = 0 := rfl
@[simp] theorem reset_host : State.reset.host = [] := rfl

end Sys2Proof.Machine
end

