-- ==== Sys2Proof/Laws/Ops.lean ====
section
/-! SUPPORT. One lemma per shared operation that says everything it can do. -/

namespace Sys2Proof.Machine

/-- A guarded read succeeds with the element of the buffer. -/
theorem memRead_of_lt {s : State} {a : Nat} (h : a < s.len) : memRead s a = .ok (s.byteAt a) := by
  simp [memRead, h]

/-- A read outside the buffer faults. -/
theorem memRead_of_ge {s : State} {a : Nat} (h : s.len ≤ a) :
    memRead s a = .error (.accessOutsideBuffer a) := by
  simp [memRead, Nat.not_lt.mpr h]

/-- A BYTE step outside READING is refused. -/
theorem byteStep_not_reading {s s' : State} (h : s.phase ≠ .reading) : byteStep s s' = .refused .byteOutsideReading := by
  simp [byteStep, h]

/-- A BYTE step at the end of the buffer fails. -/
theorem byteStep_end {s s' : State} (h : s.phase = .reading) (hl : s.len ≤ s.ptr) :
    byteStep s s' = .next (raise .unexpectedEndOfBuffer s) := by
  simp [byteStep, h, hl]

/-- A BYTE step inside the buffer gives the class's state. -/
theorem byteStep_read {s s' : State} (h : s.phase = .reading) (hl : s.ptr < s.len) : byteStep s s' = .next s' := by
  simp [byteStep, h, Nat.not_le.mpr hl]

/-- What a BYTE step that answers a next state did. -/
theorem byteStep_next {s s' t : State} (h : byteStep s s' = .next t) :
    s.phase = .reading ∧
      ((s.len ≤ s.ptr ∧ t = raise .unexpectedEndOfBuffer s) ∨ (s.ptr < s.len ∧ t = s')) := by
  by_cases hp : s.phase = .reading
  · by_cases hl : s.len ≤ s.ptr
    · rw [byteStep_end hp hl] at h
      cases h
      exact ⟨hp, .inl ⟨hl, rfl⟩⟩
    · rw [byteStep_read hp (by omega)] at h
      cases h
      exact ⟨hp, .inr ⟨by omega, rfl⟩⟩
  · rw [byteStep_not_reading hp] at h
    cases h

/-- One pass of the loop with a byte before it. -/
theorem decodeLoop_pass {w ext : Nat} {k : ErrorKind} {s : State} {n off ptr : Nat} {acc : BitVec w} (h : ptr < s.len) :
    decodeLoop w ext k s (n + 1) acc off ptr =
      if continues (s.byteAt ptr) = false then
        .ok (.ok (acc ||| placeSegment ext w (segmentOf (s.byteAt ptr)) off) (ptr + 1))
      else if w ≤ off + 7 then .ok (.err k)
      else decodeLoop w ext k s n (acc ||| placeSegment ext w (segmentOf (s.byteAt ptr)) off) (off + 7) (ptr + 1) := by
  rw [decodeLoop, if_neg (by omega), memRead_of_lt h]
  rfl

/-- A pass at the end of the buffer. -/
theorem decodeLoop_end {w ext : Nat} {k : ErrorKind} {s : State} {n off ptr : Nat} {acc : BitVec w} (h : s.len ≤ ptr) :
    decodeLoop w ext k s (n + 1) acc off ptr = .ok (.err .unexpectedEndOfBuffer) := by
  rw [decodeLoop, if_pos h]

/-- The loop always has an outcome: its guarded reads never fault. -/
theorem decodeLoop_total (w ext : Nat) (k : ErrorKind) (s : State) (n : Nat) (acc : BitVec w) (off ptr : Nat) :
    ∃ r, decodeLoop w ext k s n acc off ptr = .ok r := by
  induction n generalizing acc off ptr with
  | zero => exact ⟨_, rfl⟩
  | succ n ih =>
    by_cases h : s.len ≤ ptr
    · exact ⟨_, decodeLoop_end h⟩
    · rw [decodeLoop_pass (by omega)]
      split
      · exact ⟨_, rfl⟩
      · split
        · exact ⟨_, rfl⟩
        · exact ih _ _ _

/-- What the end of an operation that answers a next state did. -/
theorem finish_next {w : Nat} {toBus : BitVec w → Word} {s t : State} {r : Except Fault (OpResult w)}
    (h : finish toBus s r = .next t) :
    (∃ v c, r = .ok (.ok v c) ∧ t = succeed (toBus v) c s) ∨ (∃ k, r = .ok (.err k) ∧ t = raise k s) := by
  match r with
  | .error f => simp [finish] at h
  | .ok (.ok v c) => simp only [finish] at h; cases h; exact .inl ⟨v, c, rfl, rfl⟩
  | .ok (.err k) => simp only [finish] at h; cases h; exact .inr ⟨k, rfl, rfl⟩

/-- What the block's own turn gives. -/
theorem blockTurn_cases (s : State) :
    (s.phase ≠ .reading ∧ blockTurn s = .settled (.next s)) ∨
      (s.phase = .reading ∧ s.ptr < s.len ∧ blockTurn s = .run (decodeByte (s.byteAt s.ptr)) s) ∨
      (s.phase = .reading ∧ s.len ≤ s.ptr ∧ blockTurn s = .settled (.next (raise .unexpectedEndOfBuffer s))) := by
  by_cases h : s.phase = .reading
  · by_cases hl : s.ptr < s.len
    · exact .inr (.inl ⟨h, hl, by simp [blockTurn, h, State.memEnable, State.memAddr, hl, memRead_of_lt hl]⟩)
    · exact .inr (.inr ⟨h, by omega, by simp [blockTurn, h, State.memEnable, State.memAddr, hl]⟩)
  · exact .inl ⟨h, by simp [blockTurn, h]⟩

/-- A move that needs a ready block. -/
theorem whenReady_cases (s : State) (r : Refusal) (s' : State) :
    (s.phase = .reading ∧ whenReady s r s' = .settled (.refused r)) ∨
      (s.phase ≠ .reading ∧ whenReady s r s' = .settled (.next s')) := by
  by_cases h : s.phase = .reading
  · exact .inl ⟨h, by simp [whenReady, h]⟩
  · exact .inr ⟨h, by simp [whenReady, h]⟩

/-- A step runs what is fetched. -/
theorem step_run {s s' : State} {i : Instr} (h : fetch s = .run i s') : step s = exec i s' := by
  rw [step, h, runFetched]

/-- A step without an instruction. -/
theorem step_settled {s : State} {o : Host.Outcome State Fault Refusal} (h : fetch s = .settled o) : step s = o := by
  rw [step, h, runFetched]

end Sys2Proof.Machine
end

