-- ==== Sys2Proof/Laws/PerInstr.lean ====
section
/-! SUPPORT. Per instruction: its word lies in its row of spec/opcode_table.json (the row's match under its mask), and is
one byte long. -/

namespace Sys2Proof.Laws.TableMatch

/-- The "mask" of an instruction's row in spec/opcode_table.json. -/
def mask : Instr → Nat
  | .decodeVarInt => 0x1
  | .decodeVarLong => 0x1
  | .cont _ => 0x80
  | .last _ => 0x80

/-- The "match" of an instruction's row in spec/opcode_table.json. -/
def pattern : Instr → Nat
  | .decodeVarInt => 0x0
  | .decodeVarLong => 0x1
  | .cont _ => 0x80
  | .last _ => 0x00

/-- The instruction's word is one byte that its row matches. -/
def Statement (i : Instr) : Prop :=
  ∃ b : Byte, encode i = [b] ∧ b &&& BitVec.ofNat 8 (mask i) = BitVec.ofNat 8 (pattern i)

theorem decodeVarInt : Statement .decodeVarInt := ⟨0, rfl, by decide⟩

theorem decodeVarLong : Statement .decodeVarLong := ⟨1, rfl, by decide⟩

theorem cont (seg : Segment) : Statement (.cont seg) := by
  refine ⟨byteWord 1 seg, rfl, ?_⟩
  revert seg
  decide

theorem last (seg : Segment) : Statement (.last seg) := by
  refine ⟨byteWord 0 seg, rfl, ?_⟩
  revert seg
  decide

end Sys2Proof.Laws.TableMatch
end

