-- ==== Sys2Proof/Laws/Step.lean ====
section
/-! SUPPORT. What each instruction and the step can do, said once: if it answers a next state, one of these cases holds. -/

namespace Sys2Proof.Machine

/-- The two outcomes of a whole operation: success with the loop's value and cursor, or failure with its kind. -/
theorem execDecodeVarInt_next {s t : State} (h : execDecodeVarInt s = .next t) :
    s.phase ≠ .reading ∧
      ((∃ v c, decodeVarIntResult s = .ok (.ok v c) ∧ t = succeed (packInt v) c (startOperation 0 s)) ∨
        ∃ k, decodeVarIntResult s = .ok (.err k) ∧ t = raise k (startOperation 0 s)) := by
  unfold execDecodeVarInt at h
  split at h
  · cases h
  · exact ⟨by assumption, finish_next h⟩

theorem execDecodeVarLong_next {s t : State} (h : execDecodeVarLong s = .next t) :
    s.phase ≠ .reading ∧
      ((∃ v c, decodeVarLongResult s = .ok (.ok v c) ∧ t = succeed v c (startOperation 1 s)) ∨
        ∃ k, decodeVarLongResult s = .ok (.err k) ∧ t = raise k (startOperation 1 s)) := by
  unfold execDecodeVarLong at h
  split at h
  · cases h
  · exact ⟨by assumption, finish_next h⟩

/-- The three outcomes of a CONT byte. -/
theorem execCont_next {g : Segment} {s t : State} (h : execCont g s = .next t) :
    s.phase = .reading ∧
      ((s.len ≤ s.ptr ∧ t = raise .unexpectedEndOfBuffer s) ∨
        (s.ptr < s.len ∧ Config.width s.opq ≤ s.off + 7 ∧ t = raise (tooLong s.opq) s) ∨
        (s.ptr < s.len ∧ s.off + 7 < Config.width s.opq ∧ t = advance g s)) := by
  obtain ⟨hp, ⟨hl, ht⟩ | ⟨hl, ht⟩⟩ := byteStep_next h
  · exact ⟨hp, .inl ⟨hl, ht⟩⟩
  · by_cases hw : Config.width s.opq ≤ s.off + 7
    · exact ⟨hp, .inr (.inl ⟨hl, hw, ht.trans (if_pos hw)⟩)⟩
    · exact ⟨hp, .inr (.inr ⟨hl, by omega, ht.trans (if_neg hw)⟩)⟩

/-- The two outcomes of a LAST byte. -/
theorem execLast_next {g : Segment} {s t : State} (h : execLast g s = .next t) :
    s.phase = .reading ∧
      ((s.len ≤ s.ptr ∧ t = raise .unexpectedEndOfBuffer s) ∨
        (s.ptr < s.len ∧ t = complete (advance g s))) :=
  byteStep_next h

/-- The block's own step, when it answers a next state. -/
theorem blockTurn_next {s t : State}
    (h : runFetched (blockTurn s) = .next t) :
    (s.phase ≠ .reading ∧ t = s) ∨
      (s.phase = .reading ∧ s.len ≤ s.ptr ∧ t = raise .unexpectedEndOfBuffer s) ∨
      (s.phase = .reading ∧ s.ptr < s.len ∧ exec (decodeByte (s.byteAt s.ptr)) s = .next t) := by
  obtain ⟨hp, hb⟩ | ⟨hp, hl, hb⟩ | ⟨hp, hl, hb⟩ := blockTurn_cases s <;> rw [hb] at h
  · cases h
    exact .inl ⟨hp, rfl⟩
  · exact .inr (.inr ⟨hp, hl, h⟩)
  · cases h
    exact .inr (.inl ⟨hp, hl, rfl⟩)

/-- With no host move pending the block takes its own step. -/
theorem step_no_move {s : State} (h : s.host = []) :
    step s = runFetched (blockTurn s) := by
  simp only [step, fetch, h]

/-- With a host move pending, the step is that move's, in the state with the move taken. -/
theorem step_move {s : State} {m : HostMove} {rest : List HostMove} (h : s.host = m :: rest) :
    step s = runFetched (hostTurn m (takeMove rest s)) := by
  simp only [step, fetch, h]

/-- A move that needs a ready block, when its step answers a next state. -/
theorem whenReady_next {s s' t : State} {r : Refusal}
    (h : runFetched (whenReady s r s') = .next t) :
    s.phase ≠ .reading ∧ t = s' := by
  obtain ⟨hp, hb⟩ | ⟨hp, hb⟩ := whenReady_cases s r s' <;> rw [hb] at h
  · cases h
  · cases h
    exact ⟨hp, rfl⟩

/-- What a host move did, when its step answers a next state. -/
theorem hostTurn_next {m : HostMove} {s t : State}
    (h : runFetched (hostTurn m s) = .next t) :
    match m with
    | .wait =>
      (s.phase ≠ .reading ∧ t = s) ∨
        (s.phase = .reading ∧ s.len ≤ s.ptr ∧ t = raise .unexpectedEndOfBuffer s) ∨
        (s.phase = .reading ∧ s.ptr < s.len ∧ exec (decodeByte (s.byteAt s.ptr)) s = .next t)
    | .reset => t = resetBlock s
    | .present bs => s.phase ≠ .reading ∧ t = present bs s
    | .edit a b => s.phase ≠ .reading ∧ a < s.len ∧ t = edit a b s
    | .setCursor n => s.phase ≠ .reading ∧ t = setCursor n s
    | .start op => s.phase ≠ .reading ∧ t = startOperation op s
    | .operation op => exec (decodeOp op) s = .next t
    | .read r => (hostRead r s).isSome = true ∧ t = s := by
  cases m with
  | wait => exact blockTurn_next h
  | reset => cases h; rfl
  | present bs => exact whenReady_next h
  | edit a b =>
    by_cases ha : a < s.len
    · rw [hostTurn, if_pos ha] at h
      obtain ⟨hp, ht⟩ := whenReady_next h
      exact ⟨hp, ha, ht⟩
    · rw [hostTurn, if_neg ha] at h
      cases h
  | setCursor n => exact whenReady_next h
  | start op => exact whenReady_next h
  | operation op => exact h
  | read r =>
    simp only [hostTurn] at h
    cases hr : hostRead r s with
    | none =>
      rw [hr] at h
      cases h
    | some n =>
      rw [hr] at h
      cases h
      exact ⟨by rw [hr]; rfl, rfl⟩

end Sys2Proof.Machine
end

