-- ==== Sys2Proof/Tests/Slice0.lean ====
section
/-! SUPPORT. The model's own tests: words of the spec's encodings, single steps with results from 95_test_vectors.md and the
spec's worked examples, the smoke test of the well-formedness check, and a witness for every statement with hypotheses. -/

namespace Sys2Proof.Tests

open Sys2Proof.Machine Sys2Proof.Safety

/-- Reset, with a buffer presented. -/
def buffer (bs : List Byte) : State := present bs State.reset

/-- A byte-serial operation in progress on a buffer, with `cnt` bytes consumed and this accumulator. -/
def inRead (op : OpBit) (bs : List Byte) (cnt : Nat) (acc : Word) : State :=
  { startOperation op (buffer bs) with cnt := cnt, off := 7 * cnt, ptr := cnt, acc := acc }

/-- A state whose host makes these moves next. -/
def moving (moves : List HostMove) (s : State) : State := { s with host := moves }

/-- The outcome is a next state with this property. -/
def nextHas (p : State → Bool) : Host.Outcome State Fault Refusal → Bool
  | .next t => p t
  | .fault _ => false
  | .refused _ => false

theorem exists_of_nextHas {p : State → Bool} {o : Host.Outcome State Fault Refusal} (h : nextHas p o = true) :
    ∃ t, o = .next t ∧ p t = true := by
  cases o with
  | next t => exact ⟨t, rfl, h⟩
  | fault f => cases h
  | refused r => cases h

/-- The outcome is this refusal. -/
def refusedWith (r : Refusal) : Host.Outcome State Fault Refusal → Bool
  | .refused r' => decide (r' = r)
  | .next _ => false
  | .fault _ => false

/-- DONE with OK, this bus value and this cursor. -/
def okWith (v : Word) (c : Nat) (t : State) : Bool :=
  decide (t.phase = .done) && decide (t.status = .ok) && decide (t.value = v) && decide (t.cursor = c)

/-- FAILED with this kind, no value and this cursor. -/
def failedWith (k : ErrorKind) (c : Nat) (t : State) : Bool :=
  decide (t.phase = .failed) && decide (t.status = .error k) && decide (t.value = 0) && decide (t.cursor = c)

/-! ### Decoding (30_encoding.md R72, R75) -/

theorem test_decode_op_select : decode .op [0x00] = .ok (.decodeVarInt, []) ∧ decode .op [0x01] = .ok (.decodeVarLong, []) :=
  ⟨rfl, rfl⟩

/-- `1sssssss` with the segment of the first byte of V32-6. -/
theorem test_decode_cont : decode .byte [0b10101100, 0x02] = .ok (.cont 0b0101100, [0x02]) := by rfl

/-- `0sssssss` with the segment of the second byte of V32-6. -/
theorem test_decode_last : decode .byte [0b00000010] = .ok (.last 0b0000010, []) := by rfl

theorem test_decode_refuses : decode .op [0x02] = .error (.notAnOpBit 0x02) ∧ decode .byte [] = .error .noByte :=
  ⟨rfl, rfl⟩

theorem test_table_words :
    decodeTableWord 1 0 = some .decodeVarInt ∧ decodeTableWord 8 1 = some .decodeVarLong ∧
    decodeTableWord 8 0x80 = some (.cont 0) ∧ decodeTableWord 8 0x7F = some (.last 127) ∧ decodeTableWord 8 256 = none := by
  decide

/-! ### Well-formedness (30_encoding.md R70, R79) -/

theorem test_wellFormed_accepts :
    Instr.wellFormed (.cont 127) = true ∧ encodedInteger 0 [0x80, 0x80, 0x80, 0x80, 0x08] = true := by decide

theorem test_wellFormed_refuses_empty : encodedInteger 0 [] = false := by decide

theorem test_wellFormed_refuses_unended : encodedInteger 0 [0x80, 0xFF] = false := by decide

theorem test_wellFormed_refuses_early_last : encodedInteger 0 [0x80, 0x00, 0x00] = false := by decide

/-- Six bytes are no 32-bit encoding, and are a 64-bit one (V64-19). -/
theorem test_wellFormed_refuses_too_many :
    encodedInteger 0 [0x80, 0x80, 0x80, 0x80, 0x80, 0x01] = false ∧
    encodedInteger 1 [0x80, 0x80, 0x80, 0x80, 0x80, 0x01] = true := by decide

/-! ### Operations -/

/-- V32-20: excess bits dropped, bit 3 of the segment is the sign. -/
theorem test_decode_var_int_min :
    nextHas (okWith 0xFFFFFFFF80000000 5) (exec .decodeVarInt (buffer [0x80, 0x80, 0x80, 0x80, 0x78])) = true := by decide

/-- V32-25: exactly five continuation bytes at the end of the buffer are too long. -/
theorem test_decode_var_int_too_long :
    nextHas (failedWith .varIntTooLong 0) (exec .decodeVarInt (buffer [0xFF, 0xFF, 0xFF, 0xFF, 0xFF])) = true := by decide

/-- V64-12. -/
theorem test_decode_var_long_negative :
    nextHas (okWith 0xFFFFFFFF80000000 10)
      (exec .decodeVarLong (buffer [0x80, 0x80, 0x80, 0x80, 0xF8, 0xFF, 0xFF, 0xFF, 0xFF, 0x01])) = true := by decide

/-- V64-26: nine bytes read, the tenth missing. -/
theorem test_decode_var_long_end :
    nextHas (failedWith .unexpectedEndOfBuffer 0)
      (exec .decodeVarLong (buffer [0xFF, 0xFF, 0xFF, 0xFF, 0xFF, 0xFF, 0xFF, 0xFF, 0xFF])) = true := by decide

/-! ### Byte-steps (R119, R173) -/

/-- R119, pass 2. -/
theorem test_cont_accumulates :
    nextHas (fun t => decide (t.acc = 0x23DD ∧ t.off = 14 ∧ t.cnt = 2 ∧ t.ptr = 2 ∧ t.phase = .reading))
      (step (inRead 0 [0xDD, 0xC7, 0x01] 1 0x5D)) = true := by decide

/-- R173: the fifth byte 0x88 instead of 0x08. -/
theorem test_cont_at_limit :
    nextHas (failedWith .varIntTooLong 0) (step (inRead 0 [0x80, 0x80, 0x80, 0x80, 0x88] 4 0)) = true := by decide

/-- R173, the last row: `acc` 0x80000000, `cnt` 5, DONE, and the end state. -/
theorem test_last_at_limit :
    nextHas (fun t => okWith 0xFFFFFFFF80000000 5 t && decide (t.acc = 0x80000000 ∧ t.cnt = 5)) (step (inRead 0 [0x80, 0x80, 0x80, 0x80, 0x08] 4 0)) = true := by decide

/-- R149, pass 10. -/
theorem test_last_of_ten :
    nextHas (okWith 0xFFFFFFFFFFFFFFFF 10)
      (step (inRead 1 [0xFF, 0xFF, 0xFF, 0xFF, 0xFF, 0xFF, 0xFF, 0xFF, 0xFF, 0x01] 9 0x7FFFFFFFFFFFFFFF)) = true := by
  decide

/-! ### The first instruction after reset -/

theorem test_fetch_operation_after_reset :
    nextHas (failedWith .unexpectedEndOfBuffer 0) (step (State.reset.withFetchWord 8 1)) = true := by decide

theorem test_fetch_bytes_after_reset :
    nextHas (fun t => decide (t.phase = .reading ∧ t.acc = 0x2C)) (step (State.reset.withFetchWord 8 0xAC)) = true ∧
    nextHas (okWith 2 1) (step (State.reset.withFetchWord 8 0x02)) = true := by decide

/-! ### Witnesses: a state and operands that meet the hypotheses of each statement -/

/-- The answer is a next state with this property. -/
abbrev Reaches (o : Host.Outcome State Fault Refusal) (p : State → Bool) : Prop := ∃ t, o = .next t ∧ p t = true

theorem witness_DecodeOfEncodeIsTheInstruction : Instr.wellFormed .decodeVarInt = true ∧ Instr.wellFormed (.last 0) = true := by
  decide

/-- Boundaries of `ByteValueFixesClassAndSegment`. -/
theorem witness_ByteValueFixesClassAndSegment : (0x7F : Byte).toNat < 128 ∧ 128 ≤ (0x80 : Byte).toNat := by decide

theorem witness_DecodeVarIntSucceeds :
    (buffer [0x00]).phase ≠ .reading ∧ encodedInteger 0 [0x00] = true ∧ holdsAt (buffer [0x00]) 0 [0x00] = true ∧
    encodedInteger 0 [0xFF, 0xFF, 0xFF, 0xFF, 0x0F] = true ∧
    holdsAt (buffer [0xFF, 0xFF, 0xFF, 0xFF, 0x0F]) 0 [0xFF, 0xFF, 0xFF, 0xFF, 0x0F] = true := by decide

theorem witness_DecodeVarLongSucceeds :
    (buffer [0x80, 0x80, 0x80, 0x80, 0x80, 0x80, 0x80, 0x80, 0x80, 0x01]).phase ≠ .reading ∧
    encodedInteger 1 [0x80, 0x80, 0x80, 0x80, 0x80, 0x80, 0x80, 0x80, 0x80, 0x01] = true ∧
    holdsAt (buffer [0x80, 0x80, 0x80, 0x80, 0x80, 0x80, 0x80, 0x80, 0x80, 0x01]) 0
      [0x80, 0x80, 0x80, 0x80, 0x80, 0x80, 0x80, 0x80, 0x80, 0x01] = true := by decide

/-- Five continuation bytes meet the clause, four do not. -/
theorem witness_VarIntTooLongExactly :
    (buffer [0xFF, 0xFF, 0xFF, 0xFF, 0xFF]).phase ≠ .reading ∧ TooLongAt 5 (buffer [0xFF, 0xFF, 0xFF, 0xFF, 0xFF]) ∧
    ¬ TooLongAt 5 (buffer [0xFF, 0xFF, 0xFF, 0xFF]) := by decide

theorem witness_VarLongTooLongExactly :
    (buffer (List.replicate 10 0xFF)).phase ≠ .reading ∧ TooLongAt 10 (buffer (List.replicate 10 0xFF)) ∧
    ¬ TooLongAt 10 (buffer (List.replicate 9 0xFF)) := by decide

/-- Nothing remaining (V32-28), four continuation bytes (V32-30), a cursor above LEN (V32-32), nine bytes (V64-26); not five. -/
theorem witness_EndOfBufferExactly :
    (buffer []).phase ≠ .reading ∧ EndOfBufferAt 5 (buffer []) ∧ EndOfBufferAt 5 (buffer [0xFF, 0xFF, 0xFF, 0xFF]) ∧
    EndOfBufferAt 5 (setCursor 3 (buffer [0x00])) ∧ EndOfBufferAt 10 (buffer (List.replicate 9 0xFF)) ∧
    ¬ EndOfBufferAt 5 (buffer (List.replicate 5 0xFF)) := by decide

theorem witness_SuccessExactlyOnEncodedIntegers :
    (buffer [0xAC, 0x02]).phase ≠ .reading ∧ encodedInteger 0 [0xAC, 0x02] = true ∧
    holdsAt (buffer [0xAC, 0x02]) 0 [0xAC, 0x02] = true := by decide

theorem witness_EachOperationRaisesItsOwnErrors :
    Reaches (exec .decodeVarInt (buffer [0x80])) (failedWith .unexpectedEndOfBuffer 0) ∧
    Reaches (exec .decodeVarLong (buffer (List.replicate 10 0x80))) (failedWith .varLongTooLong 0) :=
  ⟨exists_of_nextHas (by decide), exists_of_nextHas (by decide)⟩

theorem witness_OperationFrame :
    Reaches (exec (decodeOp 0) (buffer [0xAC, 0x02])) (okWith 300 2) ∧
    Reaches (exec (decodeOp 1) (buffer [0xAC, 0x02])) (okWith 300 2) :=
  ⟨exists_of_nextHas (by decide), exists_of_nextHas (by decide)⟩

theorem witness_HiddenRegistersAfterOperation :
    Reaches (exec (decodeOp 1) (setCursor 1 (buffer [0x05, 0x06]))) (fun t => decide (t.opq = 1 ∧ t.ptr = 1)) :=
  exists_of_nextHas (by decide)

/-- The clauses in turn: MAXB bytes consumed up to LEN, a failure, a cursor at LEN. -/
theorem witness_CursorAdvancesWithinBuffer :
    Reaches (exec (decodeOp 0) (buffer [0x80, 0x80, 0x80, 0x80, 0x00])) (okWith 0 5) ∧
    Reaches (exec (decodeOp 0) (buffer [0x80])) (failedWith .unexpectedEndOfBuffer 0) ∧
    Reaches (exec (decodeOp 1) (setCursor 1 (buffer [0x00]))) (failedWith .unexpectedEndOfBuffer 1) :=
  ⟨exists_of_nextHas (by decide), exists_of_nextHas (by decide), exists_of_nextHas (by decide)⟩

/-- V32-31. -/
theorem witness_FailureIsPrecise :
    Reaches (exec (decodeOp 0) (setCursor 1 (buffer [0x00]))) (failedWith .unexpectedEndOfBuffer 1) :=
  exists_of_nextHas (by decide)

theorem witness_RetryFailsTheSame :
    Reaches (exec (decodeOp 0) (buffer (List.replicate 6 0xFF))) (failedWith .varIntTooLong 0) :=
  exists_of_nextHas (by decide)

/-- V32-15. -/
theorem witness_IntResultIsSignExtended :
    Reaches (exec .decodeVarInt (buffer [0xFE, 0xFF, 0xFF, 0xFF, 0x0F])) (okWith 0xFFFFFFFFFFFFFFFE 5) :=
  exists_of_nextHas (by decide)

/-- Two buffers that agree on the bytes inspected and differ after them (V32-33). -/
theorem witness_DecodeVarIntDependsOnInspectedBytes :
    (∀ i < 5, (buffer [0x81, 0x82, 0x83, 0x84, 0x05, 0x00]).byteAt i = (buffer [0x81, 0x82, 0x83, 0x84, 0x05]).byteAt i) ∧
    Reaches (exec .decodeVarInt (buffer [0x81, 0x82, 0x83, 0x84, 0x05, 0x00])) (fun t => decide (t.cursor = 5)) ∧
    Reaches (exec .decodeVarInt (buffer [0x81, 0x82, 0x83, 0x84, 0x05])) (fun t => decide (t.cursor = 5)) :=
  ⟨by decide, exists_of_nextHas (by decide), exists_of_nextHas (by decide)⟩

theorem witness_DecodeVarLongDependsOnInspectedBytes :
    (∀ i < 10, (buffer (List.replicate 10 0x80 ++ [0x00])).byteAt i = (buffer (List.replicate 10 0x80)).byteAt i) ∧
    Reaches (exec .decodeVarLong (buffer (List.replicate 10 0x80 ++ [0x00]))) (failedWith .varLongTooLong 0) ∧
    Reaches (exec .decodeVarLong (buffer (List.replicate 10 0x80))) (failedWith .varLongTooLong 0) :=
  ⟨by decide, exists_of_nextHas (by decide), exists_of_nextHas (by decide)⟩

/-- V32-13 and V32-16; V64-10 and V64-13. -/
theorem witness_ExcessBitsAreIgnored :
    allContinue (List.replicate 9 0xFF) = true ∧ continues 0x0F = false ∧ continues 0x7F = false ∧
    (0x0F : Byte) &&& 0x0F = 0x7F &&& 0x0F ∧ (0x0F : Byte) &&& 0x01 = 0x7F &&& 0x01 ∧
    holdsAt (buffer (List.replicate 4 0xFF ++ [0x0F])) 0 (List.replicate 4 0xFF ++ [0x0F]) = true ∧
    holdsAt (buffer (List.replicate 4 0xFF ++ [0x7F])) 0 (List.replicate 4 0xFF ++ [0x7F]) = true ∧
    holdsAt (buffer (List.replicate 9 0xFF ++ [0x0F])) 0 (List.replicate 9 0xFF ++ [0x0F]) = true ∧
    holdsAt (buffer (List.replicate 9 0xFF ++ [0x7F])) 0 (List.replicate 9 0xFF ++ [0x7F]) = true := by decide

/-- V32-14 and V64-11. -/
theorem witness_NegativeOnlyAtFullLength :
    Reaches (exec .decodeVarInt (buffer [0x80, 0x80, 0x80, 0x80, 0x08]))
      (fun t => decide (t.phase = .done ∧ t.value.toInt < 0)) ∧
    Reaches (exec .decodeVarLong (buffer (List.replicate 9 0x80 ++ [0x01])))
      (fun t => decide (t.phase = .done ∧ t.value.toInt < 0)) :=
  ⟨exists_of_nextHas (by decide), exists_of_nextHas (by decide)⟩

/-- The clauses in turn: V64-6 (five bytes), V64-3 (two), V64-25 (end of buffer), V64-19 (too long for 32 bits). -/
theorem witness_LongExtendsIntOnTheSameBytes :
    Reaches (exec .decodeVarInt (buffer [0x80, 0x80, 0x80, 0x80, 0x08])) (okWith 0xFFFFFFFF80000000 5) ∧
    Reaches (exec .decodeVarLong (buffer [0x80, 0x80, 0x80, 0x80, 0x08])) (okWith 0x80000000 5) ∧
    Reaches (exec .decodeVarInt (buffer [0x80, 0x01])) (okWith 0x80 2) ∧
    Reaches (exec .decodeVarInt (buffer [0x80])) (failedWith .unexpectedEndOfBuffer 0) ∧
    Reaches (exec .decodeVarInt (buffer [0x80, 0x80, 0x80, 0x80, 0x80, 0x01])) (failedWith .varIntTooLong 0) ∧
    Reaches (exec .decodeVarLong (buffer [0x80, 0x80, 0x80, 0x80, 0x80, 0x01])) (okWith 0x800000000 6) :=
  ⟨exists_of_nextHas (by decide), exists_of_nextHas (by decide), exists_of_nextHas (by decide),
    exists_of_nextHas (by decide), exists_of_nextHas (by decide), exists_of_nextHas (by decide)⟩

/-- The row 32, -128 of 95_test_vectors.md section 4. -/
theorem witness_RoundTripVarInt :
    encodeVarInt (-128) = [0x80, 0xFF, 0xFF, 0xFF, 0x0F] ∧ (buffer (encodeVarInt (-128))).phase ≠ .reading ∧
    holdsAt (buffer (encodeVarInt (-128))) 0 (encodeVarInt (-128)) = true := by decide

/-- The row 64, -2147483648 of 95_test_vectors.md section 4. -/
theorem witness_RoundTripVarLong :
    encodeVarLong (-2147483648) = [0x80, 0x80, 0x80, 0x80, 0xF8, 0xFF, 0xFF, 0xFF, 0xFF, 0x01] ∧
    (buffer (encodeVarLong (-2147483648))).phase ≠ .reading ∧
    holdsAt (buffer (encodeVarLong (-2147483648))) 0 (encodeVarLong (-2147483648)) = true := by decide

theorem witness_ReferenceEncodingIsShortest :
    encodedInteger 0 [0x81, 0x80, 0x80, 0x80, 0x00] = true ∧ encodedInteger 1 [0x80, 0x00] = true := by decide

/-- Program P1 of 95_test_vectors.md, its first two operations. -/
theorem witness_ConsecutiveIntegersDecodeInTurn :
    (moving [.operation 0, .operation 0] (buffer [0xAC, 0x02, 0x7F])).phase ≠ .reading ∧
    encodedInteger 0 [0xAC, 0x02] = true ∧ encodedInteger 0 [0x7F] = true ∧
    holdsAt (moving [.operation 0, .operation 0] (buffer [0xAC, 0x02, 0x7F])) 0 ([0xAC, 0x02] ++ [0x7F]) = true ∧
    denoted 0 [0xAC, 0x02] = 300 ∧ denoted 0 [0x7F] = 127 := by decide

/-- The last offset below the limit of each width. -/
theorem witness_ContBelowLimitAccumulates :
    let s := inRead 0 (List.replicate 5 0x80) 3 0
    let s' := inRead 1 (List.replicate 10 0x80) 8 0
    (s.phase = .reading ∧ s.ptr < s.len ∧ s.off + 7 < Config.width s.opq ∧ s.off = 7 * s.cnt) ∧
    (s'.phase = .reading ∧ s'.ptr < s'.len ∧ s'.off + 7 < Config.width s'.opq ∧ s'.off = 7 * s'.cnt) := by decide

/-- The first offset at the limit of each width. -/
theorem witness_ContAtLimitIsTooLong :
    let s := inRead 0 (List.replicate 5 0x80) 4 0
    let s' := inRead 1 (List.replicate 10 0x80) 9 0
    (s.phase = .reading ∧ s.ptr < s.len ∧ Config.width s.opq ≤ s.off + 7 ∧ s.off = 7 * s.cnt ∧
      s.cnt + 1 ≤ Config.maxb s.opq) ∧
    (s'.phase = .reading ∧ s'.ptr < s'.len ∧ Config.width s'.opq ≤ s'.off + 7 ∧ s'.off = 7 * s'.cnt ∧
      s'.cnt + 1 ≤ Config.maxb s'.opq) := by decide

/-- Also for `StepRunsTheDecodedInstruction` (first clause). -/
theorem witness_LastByteEndsWithSuccess :
    let s := inRead 0 [0x7F] 0 0
    s.phase = .reading ∧ s.ptr < s.len ∧ s.ptr = s.cursor + s.cnt ∧ s.host = [] ∧
      decode .byte [s.byteAt s.ptr] = .ok (.last 0x7F, []) := ⟨rfl, by decide, rfl, rfl, rfl⟩

/-- P4, step 3: the byte 0x01 at offset 7 leaves `acc` = 0x80. -/
theorem witness_LastByteKeepsWhatItAccumulated :
    let s := inRead 0 [0x80, 0x01] 1 0
    s.phase = .reading ∧ s.ptr < s.len ∧ Reaches (exec (.last 0x01) s) (fun t => decide (t.acc = 0x80 ∧ t.off = 14)) :=
  ⟨rfl, by decide, exists_of_nextHas (by decide)⟩

/-- Both clauses: no host move pending, and the host waiting. -/
theorem witness_ByteStepAtEndOfBufferFails :
    let s := inRead 0 [0x80] 1 0
    s.phase = .reading ∧ s.len ≤ s.ptr ∧ s.host = [] ∧ (moving [.wait] s).phase = .reading ∧
      (moving [.wait] s).len ≤ (moving [.wait] s).ptr ∧ (moving [.wait] s).host = [.wait] := by decide

theorem witness_ByteClassAtEndOfBufferFails :
    let s := inRead 1 [] 0 0
    s.phase = .reading ∧ s.len ≤ s.ptr := by decide

theorem witness_ByteClassFrame :
    Reaches (exec (.cont 0) (inRead 0 [0x80] 0 0)) (fun t => decide (t.phase = .reading)) ∧
    Reaches (exec (.cont 0) (inRead 0 (List.replicate 5 0x80) 4 0)) (fun t => decide (t.phase = .failed)) ∧
    Reaches (exec (.last 0) (inRead 0 [0x00] 0 0)) (fun t => decide (t.phase = .done)) ∧
    Reaches (exec (.last 0) (inRead 0 [0x80] 1 0)) (fun t => decide (t.phase = .failed)) :=
  ⟨exists_of_nextHas (by decide), exists_of_nextHas (by decide), exists_of_nextHas (by decide),
    exists_of_nextHas (by decide)⟩

theorem witness_ReadingAlwaysProgresses :
    let s := inRead 0 [0xDD, 0xC7, 0x01] 1 0x5D
    Inv s ∧ s.phase = .reading ∧ s.host = [] := by decide

theorem witness_ByteSerialRunAgreesWithOperation :
    let s := buffer [0xDD, 0xC7, 0x01]
    s.phase ≠ .reading ∧ s.host = [] ∧ decodeOp 0 = .decodeVarInt := by decide

/-- The clauses in turn: V32-7, V32-24 and V32-30, with their numbers of reads. -/
theorem witness_ReadsAreInOrderAndCounted :
    (buffer [0xDD, 0xC7, 0x01]).phase ≠ .reading ∧ (buffer [0xDD, 0xC7, 0x01]).host = [] ∧
    readTrace 5 (startOperation 0 (buffer [0xDD, 0xC7, 0x01])) = [0, 1, 2] ∧
    readTrace 5 (startOperation 0 (buffer (List.replicate 6 0xFF))) = [0, 1, 2, 3, 4] ∧
    readTrace 5 (startOperation 0 (buffer (List.replicate 4 0xFF))) = [0, 1, 2, 3] := by decide

theorem witness_EveryOperationEndsWithinMaxbReads :
    (buffer (List.replicate 11 0xFF)).phase ≠ .reading ∧ (buffer (List.replicate 11 0xFF)).host = [] := by decide

theorem witness_NothingPartialEscapes :
    Reaches (step (inRead 0 [0x80] 0 0)) (fun t => decide (t.phase = .reading)) ∧
    Reaches (step (inRead 0 [0x80] 1 0)) (fun t => decide (t.phase = .failed)) :=
  ⟨exists_of_nextHas (by decide), exists_of_nextHas (by decide)⟩

theorem witness_StepRunsTheDecodedInstruction :
    let s := moving [.wait] (inRead 0 [0x7F] 0 0)
    let s' := moving [.operation 1] (buffer [0x7F])
    (s.phase = .reading ∧ s.ptr < s.len ∧ s.host = [.wait]) ∧ s'.host = [.operation 1] ∧
    Reaches (step s) (okWith 127 1) ∧ Reaches (step s') (okWith 127 1) :=
  ⟨by decide, rfl, exists_of_nextHas (by decide), exists_of_nextHas (by decide)⟩

/-- Both clauses: a ready block, and one that is READING. -/
theorem witness_StartBeginsAnOperation :
    Reaches (step (moving [.start 1] (buffer [0x7F]))) (fun t => decide (t.phase = .reading ∧ t.opq = 1)) ∧
    refusedWith .operationWhileReading (step (moving [.start 1] (inRead 0 [0x7F] 0 0))) = true :=
  ⟨exists_of_nextHas (by decide), by decide⟩

/-- Program P3, step 2, and the same move while READING. -/
theorem witness_SetCursorWritesOnlyTheCursor :
    Reaches (step (moving [.setCursor 5] (buffer [0x7F]))) (fun t => decide (t.cursor = 5)) ∧
    refusedWith .cursorWriteWhileReading (step (moving [.setCursor 5] (inRead 0 [0x7F] 0 0))) = true :=
  ⟨exists_of_nextHas (by decide), by decide⟩

/-- R222: reset in READING sets the cursor to 0, not to c0. -/
theorem witness_ResetMoveRestoresResetValues :
    Reaches (step (moving [.reset] { inRead 0 [0x80, 0x7F] 0 0 with cursor := 1 }))
      (fun t => decide (t.cursor = 0 ∧ t.phase = .idle ∧ t.len = 2)) :=
  exists_of_nextHas (by decide)

/-- A present and an edit, ready and READING. -/
theorem witness_HostBufferWritesReadBack :
    MemoryOk (buffer [0x05, 0x06]) ∧
    Reaches (step (moving [.present [0x01, 0x00]] (buffer [0x05])))
      (fun t => decide (t.len = 2) && holdsAt t 0 [0x01, 0x00]) ∧
    refusedWith .bufferWriteWhileReading (step (moving [.present [0x01]] (inRead 0 [0x7F] 0 0))) = true ∧
    Reaches (step (moving [.edit 1 0x00] (buffer [0x05, 0x06]))) (fun t => holdsAt t 0 [0x05, 0x00]) ∧
    refusedWith .bufferWriteWhileReading (step (moving [.edit 0 0x01] (inRead 0 [0x7F] 0 0))) = true :=
  ⟨by decide, exists_of_nextHas (by decide), by decide, exists_of_nextHas (by decide), by decide⟩

/-- Reads of the phase and the status while READING. -/
theorem witness_HostReadsChangeNothing :
    Reaches (step (moving [.read .phase] (inRead 0 [0x7F] 0 0))) (fun t => decide (t.phase = .reading)) ∧
    refusedWith (.readNotAllowed .status) (step (moving [.read .status] (inRead 0 [0x7F] 0 0))) = true :=
  ⟨exists_of_nextHas (by decide), by decide⟩

/-- A state of the invariant for each phase. -/
theorem witness_HostReadAnswers :
    Inv (buffer [0x05]) ∧ Inv (inRead 0 [0x7F] 0 0) ∧
    Inv (succeed 5 1 (buffer [0x05])) ∧ Inv (raise .unexpectedEndOfBuffer (buffer [0x80])) :=
  ⟨by decide, by decide, by decide, by decide⟩

theorem witness_IdleBlockKeepsItsState :
    (buffer [0x05]).phase ≠ .reading ∧ (buffer [0x05]).host = [] ∧ (moving [.wait] (buffer [0x05])).host = [.wait] := by
  decide

theorem witness_EveryStepKeepsTheInvariant :
    Inv (inRead 0 [0x80, 0x01] 1 0) ∧ Reaches (step (inRead 0 [0x80, 0x01] 1 0)) (okWith 128 2) :=
  ⟨by decide, exists_of_nextHas (by decide)⟩

theorem witness_OnlyTheHostChangesTheBuffer :
    Reaches (step (moving [.present [0x01]] (buffer [0x05, 0x06])))
      (fun t => decide (t.len ≠ (moving [.present [0x01]] (buffer [0x05, 0x06])).len)) ∧
    Reaches (step (moving [.edit 0 0x01] (buffer [0x05, 0x06])))
      (fun t => decide (t.mem ≠ (moving [.edit 0 0x01] (buffer [0x05, 0x06])).mem)) :=
  ⟨exists_of_nextHas (by decide), exists_of_nextHas (by decide)⟩

theorem witness_OnlySuccessHostOrResetMovesTheCursor :
    Inv (inRead 0 [0x80, 0x01] 1 0) ∧ Reaches (step (inRead 0 [0x80, 0x01] 1 0)) (fun t => decide (t.cursor ≠ 0)) ∧
    Inv (moving [.setCursor 1] (buffer [0x05])) ∧
    Reaches (step (moving [.setCursor 1] (buffer [0x05]))) (fun t => decide (t.cursor ≠ 0)) ∧
    Inv (moving [.reset] (setCursor 1 (buffer [0x05]))) ∧
    Reaches (step (moving [.reset] (setCursor 1 (buffer [0x05])))) (fun t => decide (t.cursor ≠ 1)) :=
  ⟨by decide, exists_of_nextHas (by decide), by decide, exists_of_nextHas (by decide), by decide,
    exists_of_nextHas (by decide)⟩

/-- AW = 2 and the longest buffer it allows. -/
theorem witness_NoIndexOutgrowsTheInstance :
    let s := inRead 0 [0x80, 0x80, 0x01] 2 0
    Inv s ∧ s.len < 2 ^ 2 ∧ s.cursor < 2 ^ 2 ∧ s.ptr < 2 ^ 2 ∧ blockMoves s = true ∧ Reaches (step s) (okWith 0x4000 3) :=
  ⟨by decide, by decide, by decide, by decide, by decide, exists_of_nextHas (by decide)⟩

theorem witness_HiddenRegistersHaveNoEffect :
    let s := moving [.start 1] (buffer [0x05])
    let s' := { s with acc := 7, off := 3, ptr := 9, cnt := 2, opq := 1 }
    s.phase ≠ .reading ∧ view s = view s' ∧ s ≠ s' ∧ Reaches (step s) (fun t => decide (t.phase = .reading)) :=
  ⟨by decide, by decide, by decide, exists_of_nextHas (by decide)⟩

end Sys2Proof.Tests
end

section
/-! The byte lists that claims speak of: each predicate on them by its head and tail. -/

namespace Sys2Proof.Safety

open Sys2Proof.Machine

/-- The segment of a byte is its value modulo 128 (30_encoding.md R71). -/
theorem segmentOf_toNat (b : Byte) : (segmentOf b).toNat = b.toNat % 128 := by
  simp [segmentOf]

theorem endsWithLast_cons (b : Byte) (bs : List Byte) :
    endsWithLast (b :: bs) = true ↔
      (continues b = false ∧ bs = []) ∨ (continues b = true ∧ endsWithLast bs = true) := by
  cases bs <;> simp [endsWithLast, continues]

theorem length_pos_of_endsWithLast {bs : List Byte} (h : endsWithLast bs = true) : 1 ≤ bs.length := by
  cases bs with
  | nil => cases h
  | cons b bs => simp

theorem encodedInteger_iff (op : OpBit) (bs : List Byte) :
    encodedInteger op bs = true ↔ bs.length ≤ Config.maxb op ∧ endsWithLast bs = true := by
  simp [encodedInteger]

theorem holdsAt_cons (s : State) (a : Nat) (b : Byte) (bs : List Byte) :
    holdsAt s a (b :: bs) = true ↔ a < s.len ∧ s.byteAt a = b ∧ holdsAt s (a + 1) bs = true := by
  simp [holdsAt, and_assoc]

/-- A segment that fits below bit `ext` stands in the result at its weight, cut to `w` bits (30_encoding.md R73). -/
theorem placeSegment_segmentOf {ext w off : Nat} (h : off + 7 ≤ ext) (b : Byte) :
    placeSegment ext w (segmentOf b) off = BitVec.ofNat w ((b.toNat % 128) * 2 ^ off) := by
  have hseg : b.toNat % 128 < 2 ^ 7 := Nat.mod_lt _ (by decide)
  have hfit : (b.toNat % 128) * 2 ^ off < 2 ^ ext :=
    calc (b.toNat % 128) * 2 ^ off < 2 ^ 7 * 2 ^ off := Nat.mul_lt_mul_of_pos_right hseg (by positivity)
      _ = 2 ^ (off + 7) := by rw [← pow_add, Nat.add_comm]
      _ ≤ 2 ^ ext := Nat.pow_le_pow_right (by decide) h
  have hzext : b.toNat % 128 < 2 ^ ext :=
    hseg.trans_le (Nat.pow_le_pow_right (by decide) (by omega))
  apply BitVec.eq_of_toNat_eq
  simp [placeSegment, segmentOf_toNat, Nat.shiftLeft_eq, Nat.mod_eq_of_lt hfit, Nat.mod_eq_of_lt hzext]

end Sys2Proof.Safety
end

section
/-! The loop of the two operations: what it depends on, and what it gives on an encoded integer. -/

namespace Sys2Proof.Machine

open Sys2Proof.Safety

/-- `n` passes depend on the state only through the `n` bytes from `ptr` on and how many of these exist
(40_var_int_32.md R117, 41_var_long_64.md section 5). -/
theorem decodeLoop_congr {w ext : Nat} {k : ErrorKind} {s s' : State} {n ptr : Nat} (acc : BitVec w) (off : Nat)
    (hlen : ∀ i < n, ptr + i < s.len ↔ ptr + i < s'.len)
    (hbyte : ∀ i < n, ptr + i < s.len → s.byteAt (ptr + i) = s'.byteAt (ptr + i)) :
    decodeLoop w ext k s n acc off ptr = decodeLoop w ext k s' n acc off ptr := by
  induction n generalizing acc off ptr with
  | zero => rfl
  | succ n ih =>
    have hlen0 : ptr < s.len ↔ ptr < s'.len := hlen 0 (by omega)
    by_cases h : ptr < s.len
    · have hbyte0 : s.byteAt ptr = s'.byteAt ptr := hbyte 0 (by omega) h
      have hrest (acc' : BitVec w) (off' : Nat) :
          decodeLoop w ext k s n acc' off' (ptr + 1) = decodeLoop w ext k s' n acc' off' (ptr + 1) := by
        refine ih acc' off' (fun i hi => ?_) (fun i hi => ?_) <;> rw [Nat.add_assoc, Nat.add_comm 1 i]
        · exact hlen (i + 1) (by omega)
        · exact hbyte (i + 1) (by omega)
      rw [decodeLoop_pass h, decodeLoop_pass (hlen0.mp h), hbyte0, hrest]
    · rw [decodeLoop_end (by omega), decodeLoop_end (by omega)]

/-- On the bytes of an encoded integer whose LAST byte starts below bit `w`, the loop succeeds with the OR of the segments
and the position after the last byte (40_var_int_32.md R102, R103, R107; 41_var_long_64.md R132, R133, R137). -/
theorem decodeLoop_of_holdsAt {w ext : Nat} {k : ErrorKind} {s : State} {bs : List Byte} {n off ptr : Nat}
    (acc : BitVec w) (hend : endsWithLast bs = true) (hhold : holdsAt s ptr bs = true) (hn : bs.length ≤ n)
    (hw : off + 7 * bs.length < w + 7) (hext : off + 7 * bs.length ≤ ext) :
    decodeLoop w ext k s n acc off ptr = .ok (.ok (acc ||| assembled w off bs) (ptr + bs.length)) := by
  induction bs generalizing n acc off ptr with
  | nil => cases hend
  | cons b bs ih =>
    obtain ⟨hlt, hb, hhold⟩ := (holdsAt_cons s ptr b bs).mp hhold
    rw [List.length_cons] at hn hw hext ⊢
    obtain ⟨n, rfl⟩ : ∃ m, n = m + 1 := ⟨n - 1, by omega⟩
    rw [decodeLoop_pass hlt, hb, placeSegment_segmentOf (by omega), assembled]
    obtain ⟨hc, rfl⟩ | ⟨hc, hend⟩ := (endsWithLast_cons b bs).mp hend
    · simp [hc, assembled]
    · have hpos : 1 ≤ bs.length := length_pos_of_endsWithLast hend
      have hbelow : ¬ w ≤ off + 7 := by omega
      rw [if_neg (by simp [hc]), if_neg hbelow,
        ih _ hend hhold (by omega) (by omega) (by omega), BitVec.or_assoc,
        show ptr + 1 + bs.length = ptr + (bs.length + 1) by omega]

end Sys2Proof.Machine
end

section
/-! The whole operations: the frame of `decode_var_int` and `decode_var_long`, and their outcome as a function of what the
loop gives. -/

namespace Sys2Proof.Machine

open Sys2Proof.Safety

theorem exec_decodeVarInt_ready {s : State} (h : s.phase ≠ .reading) :
    exec .decodeVarInt s = finish packInt (startOperation 0 s) (decodeVarIntResult s) := by
  rw [exec, execDecodeVarInt, if_neg h]

/-- On an encoded integer at the cursor `decode_var_int` succeeds with the OR of its segments and the cursor past it
(40_var_int_32.md R102, R103, R107). -/
theorem exec_decodeVarInt_of_encodedInteger {s : State} {bs : List Byte} (hphase : s.phase ≠ .reading)
    (henc : encodedInteger 0 bs = true) (hhold : holdsAt s s.cursor bs = true) :
    exec .decodeVarInt s =
      .next (succeed (packInt (assembled 32 0 bs)) (s.cursor + bs.length) (startOperation 0 s)) := by
  obtain ⟨hlen, hend⟩ := (encodedInteger_iff 0 bs).mp henc
  have hlen5 : bs.length ≤ 5 := hlen
  have hresult : decodeVarIntResult s = .ok (.ok (assembled 32 0 bs) (s.cursor + bs.length)) := by
    rw [decodeVarIntResult, decodeLoop_of_holdsAt 0 hend hhold hlen5 (by omega) (by omega)]
    simp
  rw [exec_decodeVarInt_ready hphase, hresult, finish]

/-- The low half of the bus is the 32-bit result (10_state.md R22). -/
theorem packInt_setWidth (v : BitVec 32) : (packInt v).setWidth 32 = v := by
  ext i hi
  have hi64 : i < 64 := by omega
  simp [packInt, BitVec.getElem_signExtend, hi, hi64]

/-- Both operations in one equation: refused while READING, else START, the loop from the cursor, and its outcome. Width,
limit, too-long kind and packing are the operation's own. -/
theorem exec_decodeOp (op : OpBit) :
    ∃ (w ext passes : Nat) (k : ErrorKind) (toBus : BitVec w → Word), ∀ s : State,
      exec (decodeOp op) s =
        if s.phase = .reading then .refused .operationWhileReading
        else finish toBus (startOperation op s) (decodeLoop w ext k s passes 0 0 s.cursor) := by
  have hop : ∀ o : OpBit, o = 0 ∨ o = 1 := by decide
  obtain rfl | rfl := hop op
  · exact ⟨32, 35, 5, .varIntTooLong, packInt, fun _ => rfl⟩
  · exact ⟨64, 70, 10, .varLongTooLong, id, fun _ => rfl⟩

/-- An operation that answers a next state ran from a ready block and ended with one of the two outcomes. -/
theorem exec_decodeOp_next {op : OpBit} {s t : State} (h : exec (decodeOp op) s = .next t) :
    s.phase ≠ .reading ∧
      ((∃ v c, t = succeed v c (startOperation op s)) ∨ ∃ k, t = raise k (startOperation op s)) := by
  obtain ⟨w, ext, passes, k, toBus, hexec⟩ := exec_decodeOp op
  rw [hexec] at h
  split at h
  · cases h
  · next hready =>
    obtain ⟨v, c, -, ht⟩ | ⟨k', -, ht⟩ := finish_next h
    · exact ⟨hready, .inl ⟨toBus v, c, ht⟩⟩
    · exact ⟨hready, .inr ⟨k', ht⟩⟩

/-- Both outcomes write `value` and `status`, so what stood there before is lost. -/
theorem finish_with_value_status {w : Nat} (toBus : BitVec w → Word) (s : State) (v : Word) (st : Status)
    (r : Except Fault (OpResult w)) :
    finish toBus { s with value := v, status := st } r = finish toBus s r := by
  match r with
  | .error _ => rfl
  | .ok (.ok _ _) => rfl
  | .ok (.err _) => rfl

/-- The result of an operation does not depend on the value and status that stood before it
(40_var_int_32.md R108, 41_var_long_64.md R138). -/
theorem exec_decodeOp_with_value_status (op : OpBit) (s : State) (v : Word) (st : Status) :
    exec (decodeOp op) { s with value := v, status := st } = exec (decodeOp op) s := by
  obtain ⟨w, ext, passes, k, toBus, hexec⟩ := exec_decodeOp op
  have hloop : decodeLoop w ext k { s with value := v, status := st } passes 0 0 s.cursor =
      decodeLoop w ext k s passes 0 0 s.cursor :=
    decodeLoop_congr 0 0 (fun _ _ => Iff.rfl) (fun _ _ _ => rfl)
  rw [hexec, hexec, hloop]
  exact congrArg (ite _ _) (finish_with_value_status toBus (startOperation op s) v st _)

/-- One result of the loop, met by two states with one cursor, is one outcome (40_var_int_32.md R117). -/
theorem finish_outcome_eq {w : Nat} {toBus : BitVec w → Word} {op : OpBit} {s s' t t' : State}
    {r : Except Fault (OpResult w)} (hcursor : s.cursor = s'.cursor)
    (h : finish toBus (startOperation op s) r = .next t) (h' : finish toBus (startOperation op s') r = .next t') :
    t.phase = t'.phase ∧ t.status = t'.status ∧ t.value = t'.value ∧ t.cursor = t'.cursor := by
  match r with
  | .error _ => cases h
  | .ok (.ok _ _) => cases h; cases h'; exact ⟨rfl, rfl, rfl, rfl⟩
  | .ok (.err _) => cases h; cases h'; exact ⟨rfl, rfl, rfl, hcursor⟩

end Sys2Proof.Machine
end

section
/-! The obligations of 40_var_int_32.md. -/

namespace Sys2Proof.Proofs

open Sys2Proof.Machine Sys2Proof.Safety

/-- Settles O7: the loop meets the bytes of the integer one by one, the last of them at an offset of at most 28. -/
theorem decodeVarIntSucceeds : Obligations.DecodeVarIntSucceeds := by
  intro s bs hphase henc hhold
  obtain ⟨hlen, hend⟩ := (encodedInteger_iff 0 bs).mp henc
  exact ⟨length_pos_of_endsWithLast hend, hlen, _, exec_decodeVarInt_of_encodedInteger hphase henc hhold, rfl,
    packInt_setWidth (assembled 32 0 bs)⟩

/-- Settles O15: START's writes and either outcome leave the host's state but for the cursor of a success. -/
theorem operationFrame : Obligations.OperationFrame := by
  intro op s t h
  have hold (v : Word) (st : Status) : exec (decodeOp op) { s with value := v, status := st } = .next t :=
    (exec_decodeOp_with_value_status op s v st).trans h
  obtain ⟨-, ⟨v, c, rfl⟩ | ⟨k, rfl⟩⟩ := exec_decodeOp_next h
  · exact ⟨rfl, rfl, rfl, fun _ => rfl, fun _ => ⟨rfl, rfl⟩, hold⟩
  · exact ⟨rfl, rfl, rfl, fun _ => rfl, fun hc => absurd rfl hc, hold⟩

/-- Settles O20: the two loops give one result, since their five passes see the same bytes. -/
theorem decodeVarIntDependsOnInspectedBytes : Obligations.DecodeVarIntDependsOnInspectedBytes := by
  intro s s' t t' hcursor hremain hbytes h h'
  have hresult : decodeVarIntResult s = decodeVarIntResult s' := by
    rw [decodeVarIntResult, decodeVarIntResult, ← hcursor]
    refine decodeLoop_congr 0 0 (fun i hi => ?_) (fun i hi hlt => ?_)
    · omega
    · rw [hbytes i (by omega), hcursor]
  have hready : s.phase ≠ .reading := (execDecodeVarInt_next h).1
  have hready' : s'.phase ≠ .reading := (execDecodeVarInt_next h').1
  rw [exec_decodeVarInt_ready hready, hresult] at h
  rw [exec_decodeVarInt_ready hready'] at h'
  exact finish_outcome_eq hcursor h h'

end Sys2Proof.Proofs
end

section
/-! `decode_var_long` as a whole operation: its outcome on an encoded integer. -/

namespace Sys2Proof.Machine

open Sys2Proof.Safety

theorem exec_decodeVarLong_ready {s : State} (h : s.phase ≠ .reading) :
    exec .decodeVarLong s = finish id (startOperation 1 s) (decodeVarLongResult s) := by
  rw [exec, execDecodeVarLong, if_neg h]

/-- On an encoded integer at the cursor `decode_var_long` succeeds with the OR of its segments and the cursor past it
(41_var_long_64.md R132, R133, R137). -/
theorem exec_decodeVarLong_of_encodedInteger {s : State} {bs : List Byte} (hphase : s.phase ≠ .reading)
    (henc : encodedInteger 1 bs = true) (hhold : holdsAt s s.cursor bs = true) :
    exec .decodeVarLong s = .next (succeed (assembled 64 0 bs) (s.cursor + bs.length) (startOperation 1 s)) := by
  obtain ⟨hlen, hend⟩ := (encodedInteger_iff 1 bs).mp henc
  have hlen10 : bs.length ≤ 10 := hlen
  have hresult : decodeVarLongResult s = .ok (.ok (assembled 64 0 bs) (s.cursor + bs.length)) := by
    rw [decodeVarLongResult, decodeLoop_of_holdsAt 0 hend hhold hlen10 (by omega) (by omega)]
    simp
  rw [exec_decodeVarLong_ready hphase, hresult, finish, id]

end Sys2Proof.Machine
end

section
/-! The obligations of 41_var_long_64.md. -/

namespace Sys2Proof.Proofs

open Sys2Proof.Machine Sys2Proof.Safety

/-- Settles O8: the loop meets the bytes of the integer one by one, the last of them at an offset of at most 63. -/
theorem decodeVarLongSucceeds : Obligations.DecodeVarLongSucceeds := by
  intro s bs hphase henc hhold
  obtain ⟨hlen, hend⟩ := (encodedInteger_iff 1 bs).mp henc
  exact ⟨length_pos_of_endsWithLast hend, hlen, _, exec_decodeVarLong_of_encodedInteger hphase henc hhold, rfl⟩

end Sys2Proof.Proofs
end

section
/-! The block's own step in READING (42_byte_serial_machine.md section 2): what each class of byte gives inside the buffer,
what a step at the end of the buffer gives, and that an operation in progress comes to its end. -/

namespace Sys2Proof.Machine

open Sys2Proof.Safety

/-- The accumulator after a byte-step at any offset: bits of the segment at or above `W` are cut off
(42_byte_serial_machine.md R164). -/
theorem accumulate_eq_or (op : OpBit) (acc : Word) (g : Segment) (off : Nat) :
    accumulate op acc g off = acc ||| BitVec.ofNat 64 ((g.toNat * 2 ^ off) % 2 ^ Config.width op) := by
  have hwidth : Config.width op ≤ 70 := by unfold Config.width; split <;> decide
  have hzext : g.toNat % 2 ^ 70 = g.toNat := Nat.mod_eq_of_lt (by omega)
  have hcut (m : Nat) : m % 2 ^ 70 % 2 ^ Config.width op = m % 2 ^ Config.width op :=
    Nat.mod_mod_of_dvd m (pow_dvd_pow 2 hwidth)
  refine congrArg (acc ||| ·) (BitVec.eq_of_toNat_eq ?_)
  simp only [placeSegment, BitVec.toNat_setWidth, BitVec.toNat_shiftLeft, BitVec.toNat_ofNat, Nat.shiftLeft_eq,
    hzext, hcut]

/-- The two forms of the limit agree: the next offset is below `W` exactly when the next count is below `MAXB`
(42_byte_serial_machine.md R166, R167). -/
theorem below_width_iff_below_maxb (op : OpBit) (cnt : Nat) :
    7 * cnt + 7 < Config.width op ↔ cnt + 1 < Config.maxb op := by
  unfold Config.width Config.maxb
  split <;> omega

theorem exec_cont_below_limit (g : Segment) {s : State} (h : s.phase = .reading) (hl : s.ptr < s.len)
    (hw : s.off + 7 < Config.width s.opq) : exec (.cont g) s = .next (advance g s) :=
  (byteStep_read h hl).trans (congrArg _ (if_neg (Nat.not_le.mpr hw)))

theorem exec_cont_at_limit (g : Segment) {s : State} (h : s.phase = .reading) (hl : s.ptr < s.len)
    (hw : Config.width s.opq ≤ s.off + 7) : exec (.cont g) s = .next (raise (tooLong s.opq) s) :=
  (byteStep_read h hl).trans (congrArg _ (if_pos hw))

theorem exec_last_in_buffer (g : Segment) {s : State} (h : s.phase = .reading) (hl : s.ptr < s.len) :
    exec (.last g) s = .next (complete (advance g s)) :=
  byteStep_read h hl

theorem decodeByte_class (b : Byte) : decodeByte b = .cont (segmentOf b) ∨ decodeByte b = .last (segmentOf b) :=
  ite_eq_or_eq _ _ _

theorem memEnable_at_end {s : State} (hl : s.len ≤ s.ptr) : s.memEnable = false := by
  simp [State.memEnable, State.memAddr, Nat.not_lt.mpr hl]

theorem stepRead_at_end {s : State} (hl : s.len ≤ s.ptr) : stepRead s = none := by
  simp [stepRead, memEnable_at_end hl]

/-- The block's turn at the end of the buffer fails (42_byte_serial_machine.md R163). -/
theorem blockTurn_at_end {s : State} (h : s.phase = .reading) (hl : s.len ≤ s.ptr) :
    runFetched (blockTurn s) = .next (raise .unexpectedEndOfBuffer s) := by
  simp [blockTurn, h, memEnable_at_end hl, runFetched]

/-- The block's turn in READING answers a next state: the operation has ended, or a CONT byte below the limit was
accumulated (42_byte_serial_machine.md R163 to R167). -/
theorem blockTurn_reading {s : State} (h : s.phase = .reading) :
    ∃ t, runFetched (blockTurn s) = .next t ∧
      ((t.phase = .done ∨ t.phase = .failed) ∨ (s.off + 7 < Config.width s.opq ∧ ∃ g, t = advance g s)) := by
  obtain ⟨hp, -⟩ | ⟨-, hl, hturn⟩ | ⟨-, hl, -⟩ := blockTurn_cases s
  · exact absurd h hp
  · rw [hturn, runFetched]
    obtain hb | hb := decodeByte_class (s.byteAt s.ptr) <;> rw [hb]
    · obtain hw | hw := Nat.lt_or_ge (s.off + 7) (Config.width s.opq)
      · exact ⟨_, exec_cont_below_limit _ h hl hw, .inr ⟨hw, _, rfl⟩⟩
      · exact ⟨_, exec_cont_at_limit _ h hl hw, .inl (.inr rfl)⟩
    · exact ⟨_, exec_last_in_buffer _ h hl, .inl (.inl rfl)⟩
  · exact ⟨_, blockTurn_at_end h hl, .inl (.inr rfl)⟩

/-- An operation is READING with its counters below the limit (10_state.md R34) and the host makes no move: the part of the
invariant that its progress rests on. -/
def InProgress (s : State) : Prop :=
  s.phase = .reading ∧ s.host = [] ∧ s.off = 7 * s.cnt ∧ s.cnt + 1 ≤ Config.maxb s.opq

theorem inProgress_of_inv {s : State} (hinv : Inv s) (h : s.phase = .reading) (hhost : s.host = []) : InProgress s := by
  obtain ⟨-, ⟨hoff, -⟩, hreading, -⟩ := hinv
  obtain ⟨-, -, hcnt, -⟩ := hreading h
  exact ⟨h, hhost, hoff, hcnt⟩

/-- One step of an operation in progress ends it, or raises `cnt` by one and leaves it in progress
(42_byte_serial_machine.md R169). -/
theorem inProgress_step {s : State} (hs : InProgress s) :
    ∃ t, step s = .next t ∧
      ((t.phase = .done ∨ t.phase = .failed) ∨ (InProgress t ∧ t.opq = s.opq ∧ t.cnt = s.cnt + 1)) := by
  obtain ⟨hphase, hhost, hoff, -⟩ := hs
  rw [step_no_move hhost]
  obtain ⟨t, ht, hend | ⟨hw, g, rfl⟩⟩ := blockTurn_reading hphase
  · exact ⟨t, ht, .inl hend⟩
  · have hcnt : s.cnt + 1 < Config.maxb s.opq := (below_width_iff_below_maxb s.opq s.cnt).mp (hoff ▸ hw)
    have hoff' : s.off + 7 = 7 * (s.cnt + 1) := by omega
    exact ⟨_, ht, .inr ⟨⟨hphase, hhost, hoff', hcnt⟩, rfl, rfl⟩⟩

theorem steps_succ {s t : State} (h : step s = .next t) (n : Nat) : steps (n + 1) s = steps n t := by
  rw [steps, h]

/-- An operation in progress ends within the bytes it may still consume: each step that does not end it brings `cnt` one
nearer to `MAXB` (42_byte_serial_machine.md R169). -/
theorem inProgress_ends {s : State} (hs : InProgress s) :
    ∃ n t, s.cnt + n ≤ Config.maxb s.opq ∧ steps n s = .next t ∧ (t.phase = .done ∨ t.phase = .failed) := by
  have ⟨_, _, _, hbelow⟩ := hs
  obtain ⟨t, hstep, hend | ⟨ht, hopq, hcnt⟩⟩ := inProgress_step hs
  · exact ⟨1, t, hbelow, steps_succ hstep 0, hend⟩
  · obtain ⟨n, u, hn, hsteps, hend⟩ := inProgress_ends ht
    rw [hopq, hcnt] at hn
    exact ⟨n + 1, u, by omega, (steps_succ hstep n).trans hsteps, hend⟩
termination_by Config.maxb s.opq - s.cnt
decreasing_by rw [hopq, hcnt]; omega

end Sys2Proof.Machine
end

section
/-! The obligations of 42_byte_serial_machine.md on the BYTE step and its progress. -/

namespace Sys2Proof.Proofs

open Sys2Proof.Machine Sys2Proof.Safety

/-- Settles O36: each step that stays in READING keeps the operation in progress with one byte more consumed. -/
theorem readingAlwaysProgresses : Obligations.ReadingAlwaysProgresses := by
  intro s hinv hphase hhost
  have hs : InProgress s := inProgress_of_inv hinv hphase hhost
  refine ⟨?_, inProgress_ends hs⟩
  obtain ⟨t, hstep, (hdone | hfailed) | ⟨⟨hreading, -, -, hbelow⟩, -, hcnt⟩⟩ := inProgress_step hs
  · exact ⟨t, hstep, .inl hdone⟩
  · exact ⟨t, hstep, .inr (.inl hfailed)⟩
  · exact ⟨t, hstep, .inr (.inr ⟨hreading, hcnt, hbelow⟩)⟩

/-- Settles O30: CONT writes what the fetch-and-accumulate part computes, and the two forms of the limit agree. -/
theorem contBelowLimitAccumulates : Obligations.ContBelowLimitAccumulates := by
  intro g s hphase hl hw
  refine ⟨?_, fun hoff => (below_width_iff_below_maxb s.opq s.cnt).mp (hoff ▸ hw)⟩
  rw [exec_cont_below_limit g hphase hl hw, advance, accumulate_eq_or]
  rfl

/-- Settles O31: the too-long test comes before the accumulation, and the two forms of the limit agree. -/
theorem contAtLimitIsTooLong : Obligations.ContAtLimitIsTooLong := by
  intro g s hphase hl hw
  refine ⟨exec_cont_at_limit g hphase hl hw, fun hoff hcnt => ?_⟩
  have hlimit : ¬ s.cnt + 1 < Config.maxb s.opq := by
    rw [← below_width_iff_below_maxb, ← hoff]
    exact Nat.not_lt.mpr hw
  omega

/-- Settles O32: the accumulator with the last segment goes to the bus, packed by the operation's width. -/
theorem lastByteEndsWithSuccess : Obligations.LastByteEndsWithSuccess := by
  intro g s hphase hl
  refine ⟨⟨_, exec_last_in_buffer g hphase hl, rfl, ?_⟩, fun hptr => by omega⟩
  simp only [view, complete_value, advance_opq, advance_acc, accumulate_eq_or, pack, packInt, Config.width]
  split <;> rfl

/-- Settles O33: the host that waits leaves the same turn to the block as the host with no move. -/
theorem byteStepAtEndOfBufferFails : Obligations.ByteStepAtEndOfBufferFails := by
  intro s hphase hl
  refine ⟨fun hhost => ⟨?_, stepRead_at_end hl⟩, fun moves hhost => ⟨?_, stepRead_at_end hl⟩⟩
  · exact (step_no_move hhost).trans (blockTurn_at_end hphase hl)
  · exact (step_move hhost).trans (blockTurn_at_end (s := takeMove moves s) hphase hl)

end Sys2Proof.Proofs
end

section
/-! The kinds of error an operation can end with (60_exceptions.md R196). -/

namespace Sys2Proof.Machine

/-- The loop fails with the end of the buffer or with its operation's own too-long kind. -/
theorem decodeLoop_err {w ext : Nat} {k e : ErrorKind} {s : State} {n off ptr : Nat} {acc : BitVec w}
    (h : decodeLoop w ext k s n acc off ptr = .ok (.err e)) : e = .unexpectedEndOfBuffer ∨ e = k := by
  induction n generalizing acc off ptr with
  | zero => cases h; exact .inr rfl
  | succ n ih =>
    obtain hl | hl := Nat.lt_or_ge ptr s.len
    · rw [decodeLoop_pass hl] at h
      split at h
      · cases h
      · split at h
        · cases h; exact .inr rfl
        · exact ih h
    · rw [decodeLoop_end hl] at h
      cases h
      exact .inl rfl

theorem exec_decodeVarInt_status {s t : State} (h : exec .decodeVarInt s = .next t) :
    t.status = .ok ∨ t.status = .error .unexpectedEndOfBuffer ∨ t.status = .error .varIntTooLong := by
  obtain ⟨-, ⟨v, c, -, rfl⟩ | ⟨k, hk, rfl⟩⟩ := execDecodeVarInt_next h
  · exact .inl rfl
  · exact .inr ((decodeLoop_err hk).imp (congrArg Status.error) (congrArg Status.error))

theorem exec_decodeVarLong_status {s t : State} (h : exec .decodeVarLong s = .next t) :
    t.status = .ok ∨ t.status = .error .unexpectedEndOfBuffer ∨ t.status = .error .varLongTooLong := by
  obtain ⟨-, ⟨v, c, -, rfl⟩ | ⟨k, hk, rfl⟩⟩ := execDecodeVarLong_next h
  · exact .inl rfl
  · exact .inr ((decodeLoop_err hk).imp (congrArg Status.error) (congrArg Status.error))

end Sys2Proof.Machine
end

section
/-! The obligation of 60_exceptions.md on the kinds of error of each operation. -/

namespace Sys2Proof.Proofs

open Sys2Proof.Machine

/-- Settles O13: the loop can fail only by the end of the buffer or its own too-long kind, and the bytes 00, an empty buffer
and `MAXB` bytes FF give the outcomes each operation can end with. -/
theorem eachOperationRaisesItsOwnErrors : Obligations.EachOperationRaisesItsOwnErrors := by
  refine ⟨fun s t h => ?_, fun s t h => ?_, fun st hst => ?_, fun st hst => ?_⟩
  · obtain hs | hs | hs := exec_decodeVarInt_status h <;> simp [hs]
  · obtain hs | hs | hs := exec_decodeVarLong_status h <;> simp [hs]
  · match st with
    | .ok => exact ⟨present [0x00] State.reset, _, rfl, rfl⟩
    | .error .unexpectedEndOfBuffer => exact ⟨State.reset, _, rfl, rfl⟩
    | .error .varIntTooLong => exact ⟨present (List.replicate 5 0xFF) State.reset, _, rfl, rfl⟩
    | .error .varLongTooLong => exact absurd rfl hst
  · match st with
    | .ok => exact ⟨present [0x00] State.reset, _, rfl, rfl⟩
    | .error .unexpectedEndOfBuffer => exact ⟨State.reset, _, rfl, rfl⟩
    | .error .varLongTooLong => exact ⟨present (List.replicate 10 0xFF) State.reset, _, rfl, rfl⟩
    | .error .varIntTooLong => exact absurd rfl hst

end Sys2Proof.Proofs
end

section
/-! The block with no host move pending (60_exceptions.md R211, R236): the host's list stays empty, an ended operation is
never taken up again, and the reads of one in progress stay within `MAXB`. -/

namespace Sys2Proof.Machine

open Sys2Proof.Safety

theorem exec_decodeByte_host {b : Byte} {s t : State} (h : exec (decodeByte b) s = .next t) : t.host = s.host := by
  obtain hb | hb := decodeByte_class b <;> rw [hb] at h
  · obtain ⟨-, ⟨-, rfl⟩ | ⟨-, -, rfl⟩ | ⟨-, -, rfl⟩⟩ := execCont_next h <;> rfl
  · obtain ⟨-, ⟨-, rfl⟩ | ⟨-, rfl⟩⟩ := execLast_next h <;> rfl

/-- The block's own step makes no move for the host. -/
theorem step_no_move_host {s t : State} (hhost : s.host = []) (h : step s = .next t) : t.host = [] := by
  rw [step_no_move hhost] at h
  rw [← hhost]
  obtain ⟨-, rfl⟩ | ⟨-, -, rfl⟩ | ⟨-, -, hexec⟩ := blockTurn_next h
  · rfl
  · rfl
  · exact exec_decodeByte_host hexec

/-- A run of at least one step that answers a next state goes through the state its first step answers. -/
theorem steps_succ_next {n : Nat} {s t : State} (h : steps (n + 1) s = .next t) :
    ∃ r, step s = .next r ∧ steps n r = .next t := by
  rw [steps] at h
  split at h
  · next r hstep => exact ⟨r, hstep, h⟩
  · cases h
  · cases h

theorem steps_no_move_host {n : Nat} {s t : State} (hhost : s.host = []) (h : steps n s = .next t) : t.host = [] := by
  induction n generalizing s with
  | zero => cases h; exact hhost
  | succ n ih =>
    obtain ⟨r, hstep, hrest⟩ := steps_succ_next h
    exact ih (step_no_move_host hhost hstep) hrest

theorem steps_add {n : Nat} {s t : State} (h : steps n s = .next t) (m : Nat) : steps (n + m) s = steps m t := by
  induction n generalizing s with
  | zero => cases h; rw [Nat.zero_add]
  | succ n ih =>
    obtain ⟨r, hstep, hrest⟩ := steps_succ_next h
    rw [Nat.add_right_comm, steps_succ hstep, ih hrest]

theorem readTrace_succ {s t : State} (h : step s = .next t) (n : Nat) :
    readTrace (n + 1) s = (stepRead s).toList ++ readTrace n t := by
  rw [readTrace, h]

/-- The block outside READING keeps its state while the host makes no move (60_exceptions.md R211). -/
theorem step_idle {s : State} (hphase : s.phase ≠ .reading) (hhost : s.host = []) : step s = .next s := by
  obtain ⟨-, hturn⟩ | ⟨h, -⟩ | ⟨h, -⟩ := blockTurn_cases s
  · rw [step_no_move hhost, hturn, runFetched]
  · exact absurd h hphase
  · exact absurd h hphase

theorem steps_idle {s : State} (hphase : s.phase ≠ .reading) (hhost : s.host = []) (n : Nat) : steps n s = .next s := by
  induction n with
  | zero => rfl
  | succ n ih => rw [steps_succ (step_idle hphase hhost), ih]

theorem stepRead_not_reading {s : State} (h : s.phase ≠ .reading) : stepRead s = none := by
  simp [stepRead, State.memEnable, h]

theorem readTrace_idle {s : State} (hphase : s.phase ≠ .reading) (hhost : s.host = []) (n : Nat) :
    readTrace n s = [] := by
  induction n with
  | zero => rfl
  | succ n ih => rw [readTrace_succ (step_idle hphase hhost), stepRead_not_reading hphase, ih]; rfl

theorem not_reading_of_ended {s : State} (h : s.phase = .done ∨ s.phase = .failed) : s.phase ≠ .reading := by
  obtain h | h := h <;> simp [h]

theorem inProgress_startOperation (op : OpBit) {s : State} (hhost : s.host = []) :
    InProgress (startOperation op s) := by
  have hpos : 1 ≤ Config.maxb op := by unfold Config.maxb; split <;> decide
  exact ⟨rfl, hhost, rfl, hpos⟩

/-- After the steps for the bytes it may still consume an operation in progress has ended: it ends within them, and the
idle block then keeps the outcome. -/
theorem inProgress_ended {s : State} (hs : InProgress s) :
    ∃ t, steps (Config.maxb s.opq - s.cnt) s = .next t ∧ (t.phase = .done ∨ t.phase = .failed) := by
  have ⟨_, hhost, _, _⟩ := hs
  obtain ⟨n, t, hn, hsteps, hend⟩ := inProgress_ends hs
  obtain ⟨m, hm⟩ : ∃ m, Config.maxb s.opq - s.cnt = n + m := Nat.exists_eq_add_of_le (by omega)
  have hidle : steps m t = .next t := steps_idle (not_reading_of_ended hend) (steps_no_move_host hhost hsteps) m
  exact ⟨t, by rw [hm, steps_add hsteps, hidle], hend⟩

/-- However long it runs, an operation in progress reads no more bytes than it may still consume: each step reads at most
one, and counts it in `cnt` or ends the operation. -/
theorem inProgress_reads_le {s : State} (hs : InProgress s) (n : Nat) :
    s.cnt + (readTrace n s).length ≤ Config.maxb s.opq := by
  induction n generalizing s with
  | zero =>
    obtain ⟨-, -, -, hbelow⟩ := hs
    exact Nat.le_of_succ_le hbelow
  | succ n ih =>
    have ⟨_, hhost, _, hbelow⟩ := hs
    have hread : (stepRead s).toList.length ≤ 1 := Option.length_toList_le
    obtain ⟨t, hstep, hend | ⟨ht, hopq, hcnt⟩⟩ := inProgress_step hs
    · have hrest : readTrace n t = [] :=
        readTrace_idle (not_reading_of_ended hend) (step_no_move_host hhost hstep) n
      rw [readTrace_succ hstep, hrest, List.append_nil]
      omega
    · have hrest : s.cnt + 1 + (readTrace n t).length ≤ Config.maxb s.opq := hcnt ▸ hopq ▸ ih ht
      rw [readTrace_succ hstep, List.length_append]
      omega

/-- From a ready block a whole operation answers a next state, in which it has ended. -/
theorem exec_decodeOp_ended (op : OpBit) {s : State} (h : s.phase ≠ .reading) :
    ∃ u, exec (decodeOp op) s = .next u ∧ (u.phase = .done ∨ u.phase = .failed) := by
  obtain ⟨w, ext, passes, k, toBus, hexec⟩ := exec_decodeOp op
  obtain ⟨r, hr⟩ := decodeLoop_total w ext k s passes 0 0 s.cursor
  rw [hexec, if_neg h, hr]
  match r with
  | .ok _ _ => exact ⟨_, rfl, .inl rfl⟩
  | .err _ => exact ⟨_, rfl, .inr rfl⟩

end Sys2Proof.Machine
end

section
/-! The obligation of 70_reset_and_hazards.md on the end of every operation. -/

namespace Sys2Proof.Proofs

open Sys2Proof.Machine Sys2Proof.Safety

/-- Settles O40: START puts an operation in progress with no byte consumed, so all `MAXB` bytes are what it may consume. -/
theorem everyOperationEndsWithinMaxbReads : Obligations.EveryOperationEndsWithinMaxbReads := by
  intro op s hphase hhost
  have hs : InProgress (startOperation op s) := inProgress_startOperation op hhost
  refine ⟨exec_decodeOp_ended op hphase, inProgress_ended hs, fun n => ?_⟩
  simpa using inProgress_reads_le hs n

end Sys2Proof.Proofs
end

section
/-! The sum of the segments of a list of bytes, and the reference encoder against it (30_encoding.md R73, R84;
95_test_vectors.md section 4). -/

namespace Sys2Proof.Safety

open Sys2Proof.Machine

/-- The segments stand at disjoint bits, so their OR is their weighted sum, cut to `w` bits (30_encoding.md R73). -/
theorem assembled_eq_segmentSum (w off : Nat) (bs : List Byte) :
    assembled w off bs = BitVec.ofNat w (2 ^ off * segmentSum bs) := by
  induction bs generalizing off with
  | nil => rfl
  | cons b bs ih =>
    have hseg : b.toNat % 128 * 2 ^ off < 2 ^ (off + 7) := by
      rw [pow_add, Nat.mul_comm]
      exact Nat.mul_lt_mul_of_pos_left (Nat.mod_lt _ (by decide)) (by positivity)
    rw [assembled, ih, ← BitVec.ofNat_or, Nat.or_comm, ← Nat.two_pow_add_eq_or_of_lt hseg, segmentSum, pow_add]
    congr 1
    ring

theorem assembled_zero (w : Nat) (bs : List Byte) : assembled w 0 bs = BitVec.ofNat w (segmentSum bs) := by
  rw [assembled_eq_segmentSum, pow_zero, Nat.one_mul]

theorem segmentSum_lt (bs : List Byte) : segmentSum bs < 128 ^ bs.length := by
  induction bs with
  | nil => decide
  | cons b bs ih =>
    rw [segmentSum, List.length_cons, pow_succ]
    omega

theorem segmentSum_append (bs cs : List Byte) :
    segmentSum (bs ++ cs) = segmentSum bs + 128 ^ bs.length * segmentSum cs := by
  induction bs with
  | nil => simp [segmentSum]
  | cons b bs ih =>
    rw [List.cons_append, segmentSum, ih, segmentSum, List.length_cons, pow_succ]
    ring

theorem endsWithLast_append_last {bs : List Byte} {b : Byte} (hbs : allContinue bs = true) (hb : continues b = false) :
    endsWithLast (bs ++ [b]) = true := by
  induction bs with
  | nil => exact (endsWithLast_cons b []).mpr (.inl ⟨hb, rfl⟩)
  | cons c bs ih =>
    obtain ⟨hc, hrest⟩ : continues c = true ∧ allContinue bs = true := by simpa [allContinue] using hbs
    exact (endsWithLast_cons c (bs ++ [b])).mpr (.inr ⟨hc, ih hrest⟩)

theorem continues_byteWord (c : BitVec 1) (g : Segment) : continues (byteWord c g) = c.getLsbD 0 := by
  rw [continues, byteWord, BitVec.getLsbD_append]
  rfl

theorem segmentOf_byteWord (c : BitVec 1) (g : Segment) : segmentOf (byteWord c g) = g :=
  BitVec.extractLsb'_append_eq_right

theorem segmentSum_byteWord_cons (c : BitVec 1) (u : Nat) (bs : List Byte) :
    segmentSum (byteWord c (BitVec.ofNat 7 u) :: bs) = u % 128 + 128 * segmentSum bs := by
  rw [segmentSum, ← segmentOf_toNat, segmentOf_byteWord, BitVec.toNat_ofNat]

theorem endsWithLast_byteWord_zero (g : Segment) : endsWithLast [byteWord 0 g] = true :=
  (endsWithLast_cons _ _).mpr (.inl ⟨continues_byteWord 0 g, rfl⟩)

/-- The encoder gives bytes that end with a LAST byte and whose segments sum to the number it was given. -/
theorem referenceEncoder_denotes {fuel u : Nat} (h : u < 128 ^ (fuel + 1)) :
    endsWithLast (referenceEncoder (fuel + 1) u) = true ∧ segmentSum (referenceEncoder (fuel + 1) u) = u := by
  induction fuel generalizing u with
  | zero =>
    have hu : u / 128 = 0 := by omega
    rw [referenceEncoder, if_pos hu, segmentSum_byteWord_cons, segmentSum]
    exact ⟨endsWithLast_byteWord_zero _, by omega⟩
  | succ fuel ih =>
    rw [referenceEncoder]
    split
    · rw [segmentSum_byteWord_cons, segmentSum]
      exact ⟨endsWithLast_byteWord_zero _, by omega⟩
    · have hdiv : u / 128 < 128 ^ (fuel + 1) := by rw [pow_succ] at h; omega
      obtain ⟨hend, hsum⟩ := ih hdiv
      rw [segmentSum_byteWord_cons, hsum]
      exact ⟨(endsWithLast_cons _ _).mpr (.inr ⟨continues_byteWord 1 _, hend⟩), by omega⟩

theorem referenceEncoder_length_le_fuel (fuel u : Nat) : (referenceEncoder fuel u).length ≤ fuel := by
  induction fuel generalizing u with
  | zero => exact Nat.le_refl 0
  | succ fuel ih =>
    rw [referenceEncoder]
    split
    · simp
    · simpa using ih (u / 128)

/-- A number below `128 ^ n` needs at most `n` bytes. -/
theorem referenceEncoder_length_le {fuel n u : Nat} (hn : 1 ≤ n) (hu : u < 128 ^ n) :
    (referenceEncoder fuel u).length ≤ n := by
  induction fuel generalizing n u with
  | zero => exact Nat.zero_le n
  | succ fuel ih =>
    rw [referenceEncoder]
    split
    · exact hn
    · next hmore =>
      obtain ⟨m, rfl⟩ : ∃ m, n = m + 1 := ⟨n - 1, by omega⟩
      have hdiv : u / 128 < 128 ^ m := by rw [pow_succ] at hu; omega
      have hm : m ≠ 0 := by rintro rfl; omega
      simpa using ih (Nat.one_le_iff_ne_zero.mpr hm) hdiv

theorem encodedInteger_encodeVarInt (v : BitVec 32) : encodedInteger 0 (encodeVarInt v) = true :=
  (encodedInteger_iff _ _).mpr ⟨referenceEncoder_length_le_fuel 5 _, (referenceEncoder_denotes (by omega)).1⟩

theorem encodedInteger_encodeVarLong (v : BitVec 64) : encodedInteger 1 (encodeVarLong v) = true :=
  (encodedInteger_iff _ _).mpr ⟨referenceEncoder_length_le_fuel 10 _, (referenceEncoder_denotes (by omega)).1⟩

theorem assembled_encodeVarInt (v : BitVec 32) : assembled 32 0 (encodeVarInt v) = v := by
  rw [assembled_zero, encodeVarInt, (referenceEncoder_denotes (by omega)).2, BitVec.ofNat_toNat, BitVec.setWidth_eq]

theorem assembled_encodeVarLong (v : BitVec 64) : assembled 64 0 (encodeVarLong v) = v := by
  rw [assembled_zero, encodeVarLong, (referenceEncoder_denotes (by omega)).2, BitVec.ofNat_toNat, BitVec.setWidth_eq]

/-- The value that bytes assemble to needs no more bytes than these (30_encoding.md R84). -/
theorem assembled_toNat_lt (w : Nat) (bs : List Byte) : (assembled w 0 bs).toNat < 128 ^ bs.length := by
  rw [assembled_zero, BitVec.toNat_ofNat]
  exact (Nat.mod_le _ _).trans_lt (segmentSum_lt bs)

end Sys2Proof.Safety
end

section
/-! The round trips and the obligations on the encoding of integers. -/

namespace Sys2Proof.Proofs

open Sys2Proof.Machine Sys2Proof.Safety

/-- Settles O26: the encoder gives an encoded integer that assembles to `v`, on which the operation succeeds. -/
theorem roundTripVarInt : Obligations.RoundTripVarInt := by
  intro v s hphase hhold
  refine ⟨_, exec_decodeVarInt_of_encodedInteger hphase (encodedInteger_encodeVarInt v) hhold, ?_⟩
  rw [assembled_encodeVarInt]
  rfl

/-- Settles O27: as the 32-bit round trip, with nothing to pack. -/
theorem roundTripVarLong : Obligations.RoundTripVarLong := by
  intro v s hphase hhold
  refine ⟨_, exec_decodeVarLong_of_encodedInteger hphase (encodedInteger_encodeVarLong v) hhold, ?_⟩
  rw [assembled_encodeVarLong]
  rfl

/-- Settles O6: the segments stand at disjoint bits. -/
theorem orOfSegmentsIsTheirSum : Obligations.OrOfSegmentsIsTheirSum :=
  fun bs => ⟨assembled_zero 32 bs, assembled_zero 64 bs⟩

/-- Settles O28: `n` bytes hold numbers below `128 ^ n`, and such a number takes the encoder at most `n` bytes. -/
theorem referenceEncodingIsShortest : Obligations.ReferenceEncodingIsShortest := by
  have hshort {fuel w : Nat} {op : OpBit} {bs : List Byte} (h : encodedInteger op bs = true) :
      (referenceEncoder fuel (assembled w 0 bs).toNat).length ≤ bs.length := by
    obtain ⟨-, hend⟩ := (encodedInteger_iff op bs).mp h
    exact referenceEncoder_length_le (length_pos_of_endsWithLast hend) (assembled_toNat_lt w bs)
  exact ⟨fun v => ⟨encodedInteger_encodeVarInt v, assembled_encodeVarInt v⟩,
    fun v => ⟨encodedInteger_encodeVarLong v, assembled_encodeVarLong v⟩, fun _ => hshort, fun _ => hshort⟩

end Sys2Proof.Proofs
end

section
/-! What stands in the buffer from a position on (60_exceptions.md R192 to R194): an encoded integer, as many CONT bytes as
are allowed, or fewer CONT bytes up to the end; and what the loop gives on the last two. -/

namespace Sys2Proof.Safety

open Sys2Proof.Machine

/-- The `n` bytes from `ptr` on are elements of the buffer and have bit 7 set; at the cursor this is `TooLongAt`. -/
def ContRun (s : State) (ptr n : Nat) : Prop := ∀ i < n, ptr + i < s.len ∧ continues (s.byteAt (ptr + i)) = true

/-- From `ptr` on fewer than `n` bytes remain and all of them have bit 7 set; at the cursor this is `EndOfBufferAt`. -/
def ContToEnd (s : State) (ptr n : Nat) : Prop :=
  s.len - ptr < n ∧ ∀ a < s.len, ptr ≤ a → continues (s.byteAt a) = true

theorem contRun_succ (s : State) (ptr n : Nat) :
    ContRun s ptr (n + 1) ↔ (ptr < s.len ∧ continues (s.byteAt ptr) = true) ∧ ContRun s (ptr + 1) n := by
  simp only [ContRun, Nat.forall_lt_succ_left, Nat.add_zero, Nat.add_assoc, Nat.add_comm 1]

theorem contToEnd_succ {s : State} {ptr n : Nat} (hlt : ptr < s.len) :
    ContToEnd s ptr (n + 1) ↔ continues (s.byteAt ptr) = true ∧ ContToEnd s (ptr + 1) n := by
  constructor
  · rintro ⟨hlen, hall⟩
    exact ⟨hall ptr hlt (Nat.le_refl ptr), by omega, fun a ha hle => hall a ha (by omega)⟩
  · rintro ⟨hc, hlen, hall⟩
    refine ⟨by omega, fun a ha hle => ?_⟩
    obtain rfl | hlt := Nat.eq_or_lt_of_le hle
    · exact hc
    · exact hall a ha hlt

theorem tooLongAt_iff {n : Nat} (hn : 1 ≤ n) (s : State) : TooLongAt n s ↔ ContRun s s.cursor n := by
  constructor
  · rintro ⟨hlen, hall⟩ i hi
    exact ⟨by omega, hall i hi⟩
  · intro h
    have hlast := (h (n - 1) (by omega)).1
    exact ⟨by omega, fun i hi => (h i hi).2⟩

/-- One of the three stands at `ptr`. -/
theorem buffer_cases (s : State) (n ptr : Nat) :
    (∃ bs, bs.length ≤ n ∧ endsWithLast bs = true ∧ holdsAt s ptr bs = true) ∨ ContRun s ptr n ∨ ContToEnd s ptr n := by
  induction n generalizing ptr with
  | zero => exact .inr (.inl fun i hi => absurd hi (Nat.not_lt_zero i))
  | succ n ih =>
    obtain hlt | hge := Nat.lt_or_ge ptr s.len
    · cases hc : continues (s.byteAt ptr) with
      | false =>
        exact .inl ⟨[s.byteAt ptr], by simp, (endsWithLast_cons _ _).mpr (.inl ⟨hc, rfl⟩),
          (holdsAt_cons _ _ _ _).mpr ⟨hlt, rfl, rfl⟩⟩
      | true =>
        obtain ⟨bs, hlen, hend, hhold⟩ | hrun | hrest := ih (ptr + 1)
        · exact .inl ⟨s.byteAt ptr :: bs, by simpa using hlen, (endsWithLast_cons _ _).mpr (.inr ⟨hc, hend⟩),
            (holdsAt_cons _ _ _ _).mpr ⟨hlt, rfl, hhold⟩⟩
        · exact .inr (.inl ((contRun_succ s ptr n).mpr ⟨⟨hlt, hc⟩, hrun⟩))
        · exact .inr (.inr ((contToEnd_succ hlt).mpr ⟨hc, hrest⟩))
    · exact .inr (.inr ⟨by omega, fun a ha hle => absurd ha (by omega)⟩)

theorem add_length_le_of_holdsAt {s : State} {ptr : Nat} {bs : List Byte} (hend : endsWithLast bs = true)
    (hhold : holdsAt s ptr bs = true) : ptr + bs.length ≤ s.len := by
  induction bs generalizing ptr with
  | nil => cases hend
  | cons b bs ih =>
    obtain ⟨hlt, -, hhold⟩ := (holdsAt_cons s ptr b bs).mp hhold
    rw [List.length_cons]
    obtain ⟨-, rfl⟩ | ⟨-, hend⟩ := (endsWithLast_cons b bs).mp hend
    · exact hlt
    · have := ih hend hhold
      omega

end Sys2Proof.Safety

namespace Sys2Proof.Machine

open Sys2Proof.Safety

theorem decodeLoop_of_contRun {w ext : Nat} {k : ErrorKind} {s : State} {n off ptr : Nat} (acc : BitVec w)
    (h : ContRun s ptr n) : decodeLoop w ext k s n acc off ptr = .ok (.err k) := by
  induction n generalizing acc off ptr with
  | zero => rfl
  | succ n ih =>
    obtain ⟨⟨hlt, hc⟩, hrest⟩ := (contRun_succ s ptr n).mp h
    rw [decodeLoop_pass hlt, if_neg (by simp [hc]), ih _ hrest, ite_self]

theorem decodeLoop_of_contToEnd {w ext : Nat} {k : ErrorKind} {s : State} {n off ptr : Nat} (acc : BitVec w)
    (h : ContToEnd s ptr n) (hw : off + 7 * n < w + 7) :
    decodeLoop w ext k s n acc off ptr = .ok (.err .unexpectedEndOfBuffer) := by
  induction n generalizing acc off ptr with
  | zero => exact absurd h.1 (Nat.not_lt_zero _)
  | succ n ih =>
    obtain hlt | hge := Nat.lt_or_ge ptr s.len
    · obtain ⟨hc, hrest⟩ := (contToEnd_succ hlt).mp h
      have hpos : s.len - (ptr + 1) < n := hrest.1
      rw [decodeLoop_pass hlt, if_neg (by simp [hc]), if_neg (by omega), ih _ hrest (by omega)]
    · exact decodeLoop_end hge

end Sys2Proof.Machine
end

section
/-! Both operations at once, over the bit `op`: one equation with the operation's own width and limit, and one outcome for
each of the three things that can stand at the cursor. -/

namespace Sys2Proof.Machine

open Sys2Proof.Safety

theorem opBit_cases (op : OpBit) : op = 0 ∨ op = 1 := by
  revert op
  decide

theorem maxb_pos (op : OpBit) : 1 ≤ Config.maxb op := by
  obtain rfl | rfl := opBit_cases op <;> decide

/-- The width of the zero-extended segment in the pseudocode: 35 (40_var_int_32.md R101) or 70 (41_var_long_64.md R131). -/
def extWidth (op : OpBit) : Nat := if op = 0 then 35 else 70

/-- The result of an operation as it stands on the bus (10_state.md R22, 42_byte_serial_machine.md R165). -/
def onBus (op : OpBit) (v : BitVec (Config.width op)) : Word := pack op (v.setWidth 64)

theorem onBus_zero (v : BitVec 32) : onBus 0 v = packInt v := by
  have hv : (v.setWidth 64).setWidth 32 = v := BitVec.setWidth_setWidth_of_le v (by decide)
  exact congrArg packInt hv

theorem onBus_one (v : BitVec 64) : onBus 1 v = v := BitVec.setWidth_eq v

theorem exec_decodeOp_eq (op : OpBit) (s : State) :
    exec (decodeOp op) s =
      if s.phase = .reading then .refused .operationWhileReading
      else finish (onBus op) (startOperation op s)
        (decodeLoop (Config.width op) (extWidth op) (tooLong op) s (Config.maxb op) 0 0 s.cursor) := by
  obtain rfl | rfl := opBit_cases op
  · rw [show onBus 0 = packInt from funext onBus_zero]
    rfl
  · rw [show onBus 1 = id from funext onBus_one]
    rfl

theorem exec_decodeOp_ready (op : OpBit) {s : State} (h : s.phase ≠ .reading) :
    exec (decodeOp op) s = finish (onBus op) (startOperation op s)
      (decodeLoop (Config.width op) (extWidth op) (tooLong op) s (Config.maxb op) 0 0 s.cursor) := by
  rw [exec_decodeOp_eq, if_neg h]

/-- What an operation puts on the bus for the bytes of an encoded integer. -/
def busValue (op : OpBit) (bs : List Byte) : Word := onBus op (assembled (Config.width op) 0 bs)

theorem offsets_fit (op : OpBit) {n : Nat} (h : n ≤ Config.maxb op) :
    7 * n < Config.width op + 7 ∧ 7 * n ≤ extWidth op := by
  obtain rfl | rfl := opBit_cases op
  · have hn : n ≤ 5 := h
    have : 7 * n < 32 + 7 ∧ 7 * n ≤ 35 := by omega
    exact this
  · have hn : n ≤ 10 := h
    have : 7 * n < 64 + 7 ∧ 7 * n ≤ 70 := by omega
    exact this

theorem exec_decodeOp_of_encodedInteger {op : OpBit} {s : State} {bs : List Byte} (hphase : s.phase ≠ .reading)
    (henc : encodedInteger op bs = true) (hhold : holdsAt s s.cursor bs = true) :
    exec (decodeOp op) s = .next (succeed (busValue op bs) (s.cursor + bs.length) (startOperation op s)) := by
  obtain ⟨hlen, hend⟩ := (encodedInteger_iff op bs).mp henc
  obtain ⟨hw, hext⟩ := offsets_fit op hlen
  rw [exec_decodeOp_ready op hphase, decodeLoop_of_holdsAt 0 hend hhold hlen (by omega) (by omega)]
  simp [finish, busValue]

theorem exec_decodeOp_of_tooLongAt {op : OpBit} {s : State} (hphase : s.phase ≠ .reading)
    (h : TooLongAt (Config.maxb op) s) :
    exec (decodeOp op) s = .next (raise (tooLong op) (startOperation op s)) := by
  rw [exec_decodeOp_ready op hphase, decodeLoop_of_contRun 0 ((tooLongAt_iff (maxb_pos op) s).mp h)]
  rfl

theorem exec_decodeOp_of_endOfBufferAt {op : OpBit} {s : State} (hphase : s.phase ≠ .reading)
    (h : EndOfBufferAt (Config.maxb op) s) :
    exec (decodeOp op) s = .next (raise .unexpectedEndOfBuffer (startOperation op s)) := by
  obtain ⟨hw, -⟩ := offsets_fit op (Nat.le_refl _)
  rw [exec_decodeOp_ready op hphase, decodeLoop_of_contToEnd 0 h (by omega)]
  rfl

/-- Everything a whole operation can do, and on what: it succeeds on an encoded integer at the cursor and fails on
`MAXB` CONT bytes and on CONT bytes up to the end of the buffer. -/
theorem exec_decodeOp_cases {op : OpBit} {s t : State} (h : exec (decodeOp op) s = .next t) :
    s.phase ≠ .reading ∧
      ((∃ bs, encodedInteger op bs = true ∧ holdsAt s s.cursor bs = true ∧
          t = succeed (busValue op bs) (s.cursor + bs.length) (startOperation op s)) ∨
        (TooLongAt (Config.maxb op) s ∧ t = raise (tooLong op) (startOperation op s)) ∨
        (EndOfBufferAt (Config.maxb op) s ∧ t = raise .unexpectedEndOfBuffer (startOperation op s))) := by
  have hphase : s.phase ≠ .reading := (exec_decodeOp_next h).1
  refine ⟨hphase, ?_⟩
  obtain ⟨bs, hlen, hend, hhold⟩ | hrun | hrest := buffer_cases s (Config.maxb op) s.cursor
  · have henc : encodedInteger op bs = true := (encodedInteger_iff op bs).mpr ⟨hlen, hend⟩
    rw [exec_decodeOp_of_encodedInteger hphase henc hhold] at h
    cases h
    exact .inl ⟨bs, henc, hhold, rfl⟩
  · have htoo := (tooLongAt_iff (maxb_pos op) s).mpr hrun
    rw [exec_decodeOp_of_tooLongAt hphase htoo] at h
    cases h
    exact .inr (.inl ⟨htoo, rfl⟩)
  · rw [exec_decodeOp_of_endOfBufferAt hphase hrest] at h
    cases h
    exact .inr (.inr ⟨hrest, rfl⟩)

end Sys2Proof.Machine
end

section
/-! The byte-serial machine against the loop of the whole operation (42_byte_serial_machine.md R170): each BYTE step is one
pass of the loop, so the two ends show the host the same. -/

namespace Sys2Proof.Machine

open Sys2Proof.Safety

theorem decodeByte_cont {b : Byte} (h : continues b = true) : decodeByte b = .cont (segmentOf b) := by
  rw [decodeByte, if_pos h]

theorem decodeByte_last {b : Byte} (h : continues b = false) : decodeByte b = .last (segmentOf b) := by
  rw [decodeByte, if_neg (by simp [h])]

theorem blockTurn_in_buffer {s : State} (hphase : s.phase = .reading) (hl : s.ptr < s.len) :
    runFetched (blockTurn s) = exec (decodeByte (s.byteAt s.ptr)) s := by
  obtain ⟨hp, -⟩ | ⟨-, -, hturn⟩ | ⟨-, hge, -⟩ := blockTurn_cases s
  · exact absurd hphase hp
  · rw [hturn, runFetched]
  · omega

theorem step_in_buffer {s : State} (hphase : s.phase = .reading) (hhost : s.host = []) (hl : s.ptr < s.len) :
    step s = exec (decodeByte (s.byteAt s.ptr)) s :=
  (step_no_move hhost).trans (blockTurn_in_buffer hphase hl)

/-- The four things one step of an operation in progress can do, and on what (42_byte_serial_machine.md R163 to R167). -/
theorem inProgress_step_cases {s : State} (hs : InProgress s) :
    (s.len ≤ s.ptr ∧ step s = .next (raise .unexpectedEndOfBuffer s)) ∨
      (s.ptr < s.len ∧ continues (s.byteAt s.ptr) = true ∧ s.cnt + 1 = Config.maxb s.opq ∧
        step s = .next (raise (tooLong s.opq) s)) ∨
      (s.ptr < s.len ∧ continues (s.byteAt s.ptr) = true ∧ InProgress (advance (segmentOf (s.byteAt s.ptr)) s) ∧
        step s = .next (advance (segmentOf (s.byteAt s.ptr)) s)) ∨
      (s.ptr < s.len ∧ continues (s.byteAt s.ptr) = false ∧
        step s = .next (complete (advance (segmentOf (s.byteAt s.ptr)) s))) := by
  obtain ⟨hphase, hhost, hoff, hcnt⟩ := hs
  obtain hge | hlt := Nat.lt_or_ge s.ptr s.len |>.symm
  · exact .inl ⟨hge, (step_no_move hhost).trans (blockTurn_at_end hphase hge)⟩
  · rw [step_in_buffer hphase hhost hlt]
    cases hc : continues (s.byteAt s.ptr) with
    | true =>
      rw [decodeByte_cont hc]
      have hlimit := below_width_iff_below_maxb s.opq s.cnt
      obtain hw | hw := Nat.lt_or_ge (s.off + 7) (Config.width s.opq)
      · have hcnt' : s.cnt + 1 < Config.maxb s.opq := hlimit.mp (hoff ▸ hw)
        have hoff' : s.off + 7 = 7 * (s.cnt + 1) := by omega
        exact .inr (.inr (.inl ⟨hlt, rfl, ⟨hphase, hhost, hoff', hcnt'⟩, exec_cont_below_limit _ hphase hlt hw⟩))
      · exact .inr (.inl ⟨hlt, rfl, by omega, exec_cont_at_limit _ hphase hlt hw⟩)
    | false =>
      rw [decodeByte_last hc]
      exact .inr (.inr (.inr ⟨hlt, rfl, exec_last_in_buffer _ hphase hlt⟩))

/-- The byte-step on the 64 physical bits of `acc` is the loop's on the `W` bits of its own (42_byte_serial_machine.md
R164; 40_var_int_32.md R101; 41_var_long_64.md R131). -/
theorem accumulate_setWidth {op : OpBit} {off : Nat} (acc : BitVec (Config.width op)) (b : Byte)
    (h : off + 7 ≤ extWidth op) :
    accumulate op (acc.setWidth 64) (segmentOf b) off =
      (acc ||| placeSegment (extWidth op) (Config.width op) (segmentOf b) off).setWidth 64 := by
  have hext : off + 7 ≤ 70 := h.trans (by unfold extWidth; split <;> decide)
  rw [accumulate, placeSegment_segmentOf hext, placeSegment_segmentOf h, BitVec.setWidth_or]

/-- The loop sees of the state the buffer and its length only. -/
theorem decodeLoop_of_same_buffer {w ext : Nat} {k : ErrorKind} {s s' : State} (hmem : s.mem = s'.mem)
    (hlen : s.len = s'.len) (n : Nat) (acc : BitVec w) (off ptr : Nat) :
    decodeLoop w ext k s n acc off ptr = decodeLoop w ext k s' n acc off ptr :=
  decodeLoop_congr acc off (fun _ _ => by rw [hlen]) (fun _ _ _ => congrArg (Memory.get · _) hmem)

theorem decodeLoop_advance (g : Segment) (s : State) {w ext : Nat} {k : ErrorKind} (n : Nat) (acc : BitVec w)
    (off ptr : Nat) : decodeLoop w ext k (advance g s) n acc off ptr = decodeLoop w ext k s n acc off ptr :=
  decodeLoop_of_same_buffer (s := advance g s) (s' := s) rfl rfl n acc off ptr

theorem decodeLoop_startOperation (op : OpBit) (s : State) {w ext : Nat} {k : ErrorKind} (n : Nat) (acc : BitVec w)
    (off ptr : Nat) : decodeLoop w ext k (startOperation op s) n acc off ptr = decodeLoop w ext k s n acc off ptr :=
  decodeLoop_of_same_buffer (s := startOperation op s) (s' := s) rfl rfl n acc off ptr

theorem decodeLoop_raise (e : ErrorKind) (s : State) {w ext : Nat} {k : ErrorKind} (n : Nat) (acc : BitVec w)
    (off ptr : Nat) : decodeLoop w ext k (raise e s) n acc off ptr = decodeLoop w ext k s n acc off ptr :=
  decodeLoop_of_same_buffer (s := raise e s) (s' := s) rfl rfl n acc off ptr

theorem view_advance (g : Segment) (s : State) : view (advance g s) = view s := rfl

/-- `m` steps lead from a state in READING to one whose operation has ended, and not fewer. -/
def EndsAfter (m : Nat) (s t : State) : Prop :=
  steps m s = .next t ∧ (t.phase = .done ∨ t.phase = .failed) ∧ ∀ j < m, ∃ r, steps j s = .next r ∧ r.phase = .reading

theorem endsAfter_one {s t : State} (hphase : s.phase = .reading) (hstep : step s = .next t)
    (hend : t.phase = .done ∨ t.phase = .failed) : EndsAfter 1 s t :=
  ⟨steps_succ hstep 0, hend, fun j hj => ⟨s, by rw [Nat.lt_one_iff.mp hj, steps], hphase⟩⟩

theorem endsAfter_succ {m : Nat} {s r t : State} (hphase : s.phase = .reading) (hstep : step s = .next r)
    (h : EndsAfter m r t) : EndsAfter (m + 1) s t := by
  obtain ⟨hsteps, hend, hbefore⟩ := h
  refine ⟨(steps_succ hstep m).trans hsteps, hend, fun j hj => ?_⟩
  cases j with
  | zero => exact ⟨s, rfl, hphase⟩
  | succ j => rw [steps_succ hstep]; exact hbefore j (by omega)

/-- The outcome of a result shows the host the same from two states that did. -/
theorem finish_view {w : Nat} {toBus : BitVec w → Word} {s s' u : State} {r : Except Fault (OpResult w)}
    (h : finish toBus s r = .next u) (hview : view s = view s') :
    ∃ u', finish toBus s' r = .next u' ∧ view u' = view u := by
  simp only [view, View.mk.injEq] at hview
  obtain ⟨hphase, hcursor, hvalue, hstatus, hmem, hlen, hhost⟩ := hview
  obtain ⟨v, c, rfl, rfl⟩ | ⟨k, rfl, rfl⟩ := finish_next h
  · exact ⟨_, rfl, by simp [view, *]⟩
  · exact ⟨_, rfl, by simp [view, *]⟩

/-- From an operation in progress with `n` passes left, the run of BYTE steps ends with the view that the outcome of the
loop's `n` passes gives. -/
theorem endsAfter_view_eq_finish {n : Nat} {s : State} {acc : BitVec (Config.width s.opq)} (hs : InProgress s)
    (hn : s.cnt + n = Config.maxb s.opq) (hacc : s.acc = acc.setWidth 64) :
    ∃ m t u, m ≤ n ∧ EndsAfter m s t ∧
      finish (onBus s.opq) s
        (decodeLoop (Config.width s.opq) (extWidth s.opq) (tooLong s.opq) s n acc s.off s.ptr) = .next u ∧
      view u = view t := by
  induction n generalizing s with
  | zero =>
    obtain ⟨-, -, -, hbelow⟩ := hs
    omega
  | succ n ih =>
    have ⟨hphase, _, hoff, hbelow⟩ := hs
    have hext : s.off + 7 ≤ extWidth s.opq := by
      have := (offsets_fit s.opq hbelow).2
      omega
    obtain ⟨hge, hstep⟩ | ⟨hlt, hc, hlast, hstep⟩ | ⟨hlt, hc, hnext, hstep⟩ | ⟨hlt, hc, hstep⟩ :=
      inProgress_step_cases hs
    · refine ⟨1, _, _, by omega, endsAfter_one hphase hstep (.inr rfl), ?_, rfl⟩
      rw [decodeLoop_end hge]
      rfl
    · obtain rfl : n = 0 := by omega
      refine ⟨1, _, _, by omega, endsAfter_one hphase hstep (.inr rfl), ?_, rfl⟩
      rw [decodeLoop_pass hlt, if_neg (by simp [hc]), decodeLoop, ite_self]
      rfl
    · have hw : ¬ Config.width s.opq ≤ s.off + 7 := by
        obtain ⟨-, -, -, hcnt'⟩ := hnext
        have := (below_width_iff_below_maxb s.opq s.cnt).mpr hcnt'
        omega
      have hacc' : accumulate s.opq s.acc (segmentOf (s.byteAt s.ptr)) s.off = _ :=
        hacc ▸ accumulate_setWidth acc _ hext
      obtain ⟨m, t, u, hm, hrun, hfinish, hview⟩ :=
        ih hnext ((Nat.add_right_comm s.cnt 1 n).trans hn) hacc'
      obtain ⟨u', hfinish', hview'⟩ := finish_view hfinish (view_advance (segmentOf (s.byteAt s.ptr)) s)
      refine ⟨m + 1, t, u', by omega, endsAfter_succ hphase hstep hrun, ?_, hview'.trans hview⟩
      rw [decodeLoop_pass hlt, if_neg (by simp [hc]), if_neg hw, ← decodeLoop_advance (segmentOf (s.byteAt s.ptr)) s]
      exact hfinish'
    · refine ⟨1, _, _, by omega, endsAfter_one hphase hstep (.inl rfl),
        congrArg (finish (onBus s.opq) s) ((decodeLoop_pass hlt).trans (if_pos hc)), ?_⟩
      simp [view, hacc, accumulate_setWidth acc _ hext, onBus]

/-- START and the BYTE steps after it end with the view of the whole operation (42_byte_serial_machine.md R170): all
`MAXB` passes stand before them, and the accumulator is empty as in the loop's first pass. -/
theorem endsAfter_view_eq_exec (op : OpBit) {s : State} (hphase : s.phase ≠ .reading) (hhost : s.host = []) :
    ∃ n t u, n ≤ Config.maxb op ∧ EndsAfter n (startOperation op s) t ∧ exec (decodeOp op) s = .next u ∧
      view u = view t := by
  obtain ⟨n, t, u, hn, hrun, hfinish, hview⟩ :=
    endsAfter_view_eq_finish (acc := 0) (inProgress_startOperation op hhost) (Nat.zero_add _)
      (BitVec.setWidth_zero 64 _).symm
  refine ⟨n, t, u, hn, hrun, ?_, hview⟩
  rw [exec_decodeOp_ready op hphase, ← decodeLoop_startOperation op s]
  exact hfinish

end Sys2Proof.Machine
end

section
/-! The obligation of 42_byte_serial_machine.md section 3 on the two levels. -/

namespace Sys2Proof.Proofs

open Sys2Proof.Machine Sys2Proof.Safety

/-- Settles O37: each BYTE step is one pass of the loop. -/
theorem byteSerialRunAgreesWithOperation : Obligations.ByteSerialRunAgreesWithOperation := by
  intro op s hphase hhost
  obtain ⟨n, t, u, hn, ⟨hsteps, hend, hbefore⟩, hexec, hview⟩ := endsAfter_view_eq_exec op hphase hhost
  exact ⟨n, t, u, hn, hsteps, hexec, hview.symm, not_reading_of_ended hend, hbefore⟩

end Sys2Proof.Proofs
end

section
/-! What one step of the machine can do, said once over the whole machine: the block's own steps and the host's moves, each
with what it needs and what it gives. -/

namespace Sys2Proof.Machine

open Sys2Proof.Safety

/-- The state with the host's next move taken, if there is one. -/
abbrev taken (s : State) : State := takeMove s.host.tail s

theorem taken_of_no_move {s : State} (hhost : s.host = []) : taken s = s := by
  cases s
  cases hhost
  rfl

/-- The steps that answer a next state. -/
inductive StepCase (s : State) : State → Prop
  | idle : blockMoves s = true → s.phase ≠ .reading → StepCase s (taken s)
  | endOfBuffer : blockMoves s = true → s.phase = .reading → s.len ≤ s.ptr →
      StepCase s (raise .unexpectedEndOfBuffer (taken s))
  | tooLong : blockMoves s = true → s.phase = .reading → s.ptr < s.len → Config.width s.opq ≤ s.off + 7 →
      StepCase s (raise (tooLong s.opq) (taken s))
  | cont (g : Segment) : blockMoves s = true → s.phase = .reading → s.ptr < s.len →
      s.off + 7 < Config.width s.opq → StepCase s (advance g (taken s))
  | last (g : Segment) : blockMoves s = true → s.phase = .reading → s.ptr < s.len →
      StepCase s (complete (advance g (taken s)))
  | reset (moves : List HostMove) : s.host = .reset :: moves → StepCase s (resetBlock (takeMove moves s))
  | present (bs : List Byte) (moves : List HostMove) : s.host = .present bs :: moves → s.phase ≠ .reading →
      StepCase s (present bs (takeMove moves s))
  | edit (a : Nat) (b : Byte) (moves : List HostMove) : s.host = .edit a b :: moves → s.phase ≠ .reading →
      a < s.len → StepCase s (edit a b (takeMove moves s))
  | setCursor (n : Nat) (moves : List HostMove) : s.host = .setCursor n :: moves → s.phase ≠ .reading →
      StepCase s (setCursor n (takeMove moves s))
  | start (op : OpBit) (moves : List HostMove) : s.host = .start op :: moves → s.phase ≠ .reading →
      StepCase s (startOperation op (takeMove moves s))
  | operation (op : OpBit) (moves : List HostMove) (t : State) : s.host = .operation op :: moves →
      exec (decodeOp op) (takeMove moves s) = .next t → StepCase s t
  | read (r : HostReg) (moves : List HostMove) : s.host = .read r :: moves → (hostRead r s).isSome = true →
      StepCase s (takeMove moves s)

/-- The block's own turn, with the host's wait taken if there is one. -/
theorem stepCase_of_blockTurn {s t : State} (hmoves : blockMoves s = true)
    (h : runFetched (blockTurn (taken s)) = .next t) : StepCase s t := by
  obtain ⟨hphase, rfl⟩ | ⟨hphase, hge, rfl⟩ | ⟨hphase, hlt, hexec⟩ := blockTurn_next h
  · exact .idle hmoves hphase
  · exact .endOfBuffer hmoves hphase hge
  · obtain hb | hb := decodeByte_class ((taken s).byteAt (taken s).ptr) <;> rw [hb] at hexec
    · obtain ⟨-, ⟨hge, -⟩ | ⟨-, hw, rfl⟩ | ⟨-, hw, rfl⟩⟩ := execCont_next hexec
      · omega
      · exact .tooLong hmoves hphase hlt hw
      · exact .cont _ hmoves hphase hlt hw
    · obtain ⟨-, ⟨hge, -⟩ | ⟨-, rfl⟩⟩ := execLast_next hexec
      · omega
      · exact .last _ hmoves hphase hlt

theorem step_next {s t : State} (h : step s = .next t) : StepCase s t := by
  cases hhost : s.host with
  | nil =>
    rw [step_no_move hhost, ← taken_of_no_move hhost] at h
    exact stepCase_of_blockTurn (by rw [blockMoves, hhost]) h
  | cons m moves =>
    rw [step_move hhost] at h
    cases m with
    | wait =>
      have hs : takeMove moves s = taken s := by rw [taken, hhost, List.tail_cons]
      exact stepCase_of_blockTurn (by rw [blockMoves, hhost]) (hs ▸ h)
    | reset => obtain rfl : t = resetBlock (takeMove moves s) := hostTurn_next h; exact .reset moves hhost
    | present bs => obtain ⟨hphase, rfl⟩ := hostTurn_next h; exact .present bs moves hhost hphase
    | edit a b => obtain ⟨hphase, ha, rfl⟩ := hostTurn_next h; exact .edit a b moves hhost hphase ha
    | setCursor n => obtain ⟨hphase, rfl⟩ := hostTurn_next h; exact .setCursor n moves hhost hphase
    | start op => obtain ⟨hphase, rfl⟩ := hostTurn_next h; exact .start op moves hhost hphase
    | operation op => exact .operation op moves t hhost (hostTurn_next h)
    | read r => obtain ⟨hread, rfl⟩ := hostTurn_next h; exact .read r moves hhost hread

end Sys2Proof.Machine
end

section
/-! Each operation on the state keeps the invariant (10_state.md R34). -/

namespace Sys2Proof.Safety

open Sys2Proof.Machine

theorem inv_takeMove (moves : List HostMove) (s : State) : Inv (takeMove moves s) ↔ Inv s := Iff.rfl

theorem accumulate_toNat_lt (op : OpBit) {acc : Word} (g : Segment) {off : Nat} (h : acc.toNat < 2 ^ off) :
    (accumulate op acc g off).toNat < 2 ^ (off + 7) := by
  have hseg : g.toNat * 2 ^ off < 2 ^ (off + 7) := by
    rw [pow_add, Nat.mul_comm]
    exact Nat.mul_lt_mul_of_pos_left g.isLt (by positivity)
  rw [accumulate_eq_or, BitVec.toNat_or, BitVec.toNat_ofNat]
  exact Nat.or_lt_two_pow (h.trans_le (Nat.pow_le_pow_right (by decide) (by omega)))
    ((Nat.mod_le _ _).trans_lt ((Nat.mod_le _ _).trans_lt hseg))

theorem packInt_eq_signExtend (v : BitVec 32) : packInt v = ((packInt v).setWidth 32).signExtend 64 := by
  rw [packInt_setWidth, packInt]

theorem pack_zero_eq_signExtend (acc : Word) : pack 0 acc = ((pack 0 acc).setWidth 32).signExtend 64 :=
  packInt_eq_signExtend (acc.setWidth 32)

theorem inv_raise {s : State} {k : ErrorKind} (h : Inv s) (hk : k = .unexpectedEndOfBuffer ∨ k = tooLong s.opq) :
    Inv (raise k s) := by
  obtain ⟨hmem, hcount, -, -⟩ := h
  refine ⟨hmem, hcount, nofun, nofun, nofun, fun _ => ⟨rfl, ?_⟩⟩
  exact hk.imp (congrArg Status.error) (congrArg Status.error)

theorem inv_advance {s : State} (g : Segment) (h : Inv s) (hphase : s.phase = .reading) (hl : s.ptr < s.len)
    (hw : s.off + 7 < Config.width s.opq) : Inv (advance g s) := by
  obtain ⟨hmem, ⟨hoff, -⟩, hreading, -⟩ := h
  obtain ⟨hptr, -, -, hacc⟩ := hreading hphase
  have hcnt : s.cnt + 1 < Config.maxb s.opq := (below_width_iff_below_maxb s.opq s.cnt).mp (hoff ▸ hw)
  have hoff' : s.off + 7 = 7 * (s.cnt + 1) := by omega
  have hptr' : s.ptr + 1 = s.cursor + (s.cnt + 1) := by omega
  have houtcome : OutcomeOk (advance g s) := by simp [OutcomeOk, hphase]
  exact ⟨hmem, ⟨hoff', hcnt.le⟩, fun _ => ⟨hptr', fun _ => hl, hcnt, accumulate_toNat_lt _ g hacc⟩, houtcome⟩

theorem inv_complete_advance {s : State} (g : Segment) (h : Inv s) (hphase : s.phase = .reading) :
    Inv (complete (advance g s)) := by
  obtain ⟨hmem, ⟨hoff, -⟩, hreading, -⟩ := h
  obtain ⟨-, -, hcnt, -⟩ := hreading hphase
  have hoff' : s.off + 7 = 7 * (s.cnt + 1) := by omega
  refine ⟨hmem, ⟨hoff', hcnt⟩, nofun, nofun, fun _ => ⟨rfl, fun (hop : s.opq = 0) => ?_⟩, nofun⟩
  rw [complete_value, advance_opq, hop]
  exact pack_zero_eq_signExtend _

theorem inv_startOperation {s : State} (op : OpBit) (h : MemoryOk s) : Inv (startOperation op s) :=
  ⟨h, ⟨rfl, Nat.zero_le _⟩, fun _ => ⟨rfl, nofun, maxb_pos op, Nat.one_pos⟩, nofun, nofun, nofun⟩

theorem inv_succeed_startOperation {s : State} (op : OpBit) (bs : List Byte) (c : Nat) (h : MemoryOk s) :
    Inv (succeed (busValue op bs) c (startOperation op s)) := by
  refine ⟨h, ⟨rfl, Nat.zero_le _⟩, nofun, nofun, fun _ => ⟨rfl, fun (hop : op = 0) => ?_⟩, nofun⟩
  subst hop
  exact pack_zero_eq_signExtend _

theorem inv_resetBlock {s : State} (h : MemoryOk s) : Inv (resetBlock s) :=
  ⟨h, ⟨rfl, Nat.zero_le _⟩, nofun, fun _ => ⟨rfl, rfl⟩, nofun, nofun⟩

theorem inv_present {s : State} (bs : List Byte) (h : Inv s) (hphase : s.phase ≠ .reading) : Inv (present bs s) := by
  obtain ⟨-, hcount, -, houtcome⟩ := h
  exact ⟨⟨Memory.wf_ofBytes bs, Memory.below_ofBytes 0 _ bs (by simp)⟩, hcount, fun hp => absurd hp hphase, houtcome⟩

theorem inv_edit {s : State} {a : Nat} (b : Byte) (h : Inv s) (hphase : s.phase ≠ .reading) (ha : a < s.len) :
    Inv (edit a b s) := by
  obtain ⟨⟨hwf, hbelow⟩, hcount, -, houtcome⟩ := h
  exact ⟨⟨Memory.wf_set a b hwf, Memory.below_set b ha hbelow⟩, hcount, fun hp => absurd hp hphase, houtcome⟩

theorem inv_setCursor {s : State} (n : Nat) (h : Inv s) (hphase : s.phase ≠ .reading) : Inv (setCursor n s) := by
  obtain ⟨hmem, hcount, -, houtcome⟩ := h
  exact ⟨hmem, hcount, fun hp => absurd hp hphase, houtcome⟩

theorem inv_exec_decodeOp {op : OpBit} {s t : State} (hmem : MemoryOk s) (h : exec (decodeOp op) s = .next t) :
    Inv t := by
  obtain ⟨-, ⟨bs, -, -, rfl⟩ | ⟨-, rfl⟩ | ⟨-, rfl⟩⟩ := exec_decodeOp_cases h
  · exact inv_succeed_startOperation op bs _ hmem
  · exact inv_raise (inv_startOperation op hmem) (.inr rfl)
  · exact inv_raise (inv_startOperation op hmem) (.inl rfl)

theorem inv_step {s t : State} (hs : Inv s) (h : step s = .next t) : Inv t := by
  have hinv (moves : List HostMove) : Inv (takeMove moves s) := (inv_takeMove moves s).mpr hs
  cases step_next h with
  | idle => exact hinv _
  | endOfBuffer => exact inv_raise (hinv _) (.inl rfl)
  | tooLong => exact inv_raise (hinv _) (.inr rfl)
  | cont g _ hphase hl hw => exact inv_advance g (hinv _) hphase hl hw
  | last g _ hphase => exact inv_complete_advance g (hinv _) hphase
  | reset => exact inv_resetBlock (hinv _).1
  | present bs _ _ hphase => exact inv_present bs (hinv _) hphase
  | edit a b _ _ hphase ha => exact inv_edit b (hinv _) hphase ha
  | setCursor n _ _ hphase => exact inv_setCursor n (hinv _) hphase
  | start op => exact inv_startOperation op (hinv _).1
  | operation op _ _ _ hexec => exact inv_exec_decodeOp (hinv _).1 hexec
  | read => exact hinv _

end Sys2Proof.Safety
end

section
/-! The obligations of 10_state.md section 10 on the invariant. -/

namespace Sys2Proof.Proofs

open Sys2Proof.Machine Sys2Proof.Safety

/-- Settles O51, case by case over the steps. -/
theorem everyStepKeepsTheInvariant : Obligations.EveryStepKeepsTheInvariant :=
  fun _ _ => inv_step

/-- Settles O50: reset is the block's reset over an empty buffer. -/
theorem invariantHoldsAtReset : Obligations.InvariantHoldsAtReset :=
  inv_resetBlock (s := State.reset) ⟨Memory.wf_reset, rfl⟩

end Sys2Proof.Proofs
end

section
/-! What the outcome of a whole operation tells of the buffer, and what the buffer tells of the outcome. -/

namespace Sys2Proof.Machine

open Sys2Proof.Safety

theorem tooLong_ne_endOfBuffer (op : OpBit) : tooLong op ≠ .unexpectedEndOfBuffer := by
  obtain rfl | rfl := opBit_cases op <;> decide

/-- The too-long failure (60_exceptions.md R193, R194). -/
theorem exec_decodeOp_tooLong_iff {op : OpBit} {s t : State} (h : exec (decodeOp op) s = .next t) :
    t.status = .error (tooLong op) ↔ TooLongAt (Config.maxb op) s := by
  obtain ⟨hphase, hcases⟩ := exec_decodeOp_cases h
  constructor
  · intro hstatus
    obtain ⟨bs, -, -, rfl⟩ | ⟨htoo, -⟩ | ⟨-, rfl⟩ := hcases
    · cases hstatus
    · exact htoo
    · exact absurd (Status.error.inj hstatus).symm (tooLong_ne_endOfBuffer op)
  · intro htoo
    rw [exec_decodeOp_of_tooLongAt hphase htoo] at h
    cases h
    rfl

theorem exec_decodeOp_tooLong_exactly (op : OpBit) {s : State} (hphase : s.phase ≠ .reading) :
    ∃ t, exec (decodeOp op) s = .next t ∧ (t.status = .error (tooLong op) ↔ TooLongAt (Config.maxb op) s) ∧
      (TooLongAt (Config.maxb op) s → view t = failedView (tooLong op) s) := by
  obtain ⟨t, h, -⟩ := exec_decodeOp_ended op hphase
  refine ⟨t, h, exec_decodeOp_tooLong_iff h, fun htoo => ?_⟩
  cases h.symm.trans (exec_decodeOp_of_tooLongAt hphase htoo)
  rfl

/-- The end-of-buffer failure (60_exceptions.md R192). -/
theorem exec_decodeOp_endOfBuffer_iff {op : OpBit} {s t : State} (h : exec (decodeOp op) s = .next t) :
    t.status = .error .unexpectedEndOfBuffer ↔ EndOfBufferAt (Config.maxb op) s := by
  obtain ⟨hphase, hcases⟩ := exec_decodeOp_cases h
  constructor
  · intro hstatus
    obtain ⟨bs, -, -, rfl⟩ | ⟨-, rfl⟩ | ⟨hrest, -⟩ := hcases
    · cases hstatus
    · exact absurd (Status.error.inj hstatus) (tooLong_ne_endOfBuffer op)
    · exact hrest
  · intro hrest
    rw [exec_decodeOp_of_endOfBufferAt hphase hrest] at h
    cases h
    rfl

theorem exec_decodeOp_endOfBuffer_exactly (op : OpBit) {s : State} (hphase : s.phase ≠ .reading) :
    ∃ t, exec (decodeOp op) s = .next t ∧
      (t.status = .error .unexpectedEndOfBuffer ↔ EndOfBufferAt (Config.maxb op) s) ∧
      (EndOfBufferAt (Config.maxb op) s → view t = failedView .unexpectedEndOfBuffer s) := by
  obtain ⟨t, h, -⟩ := exec_decodeOp_ended op hphase
  refine ⟨t, h, exec_decodeOp_endOfBuffer_iff h, fun hrest => ?_⟩
  cases h.symm.trans (exec_decodeOp_of_endOfBufferAt hphase hrest)
  rfl

/-- Success (30_encoding.md R84). -/
theorem exec_decodeOp_ok_iff {op : OpBit} {s t : State} (h : exec (decodeOp op) s = .next t) :
    t.status = .ok ↔ ∃ bs, encodedInteger op bs = true ∧ holdsAt s s.cursor bs = true := by
  obtain ⟨hphase, hcases⟩ := exec_decodeOp_cases h
  constructor
  · intro hstatus
    obtain ⟨bs, henc, hhold, -⟩ | ⟨-, rfl⟩ | ⟨-, rfl⟩ := hcases
    · exact ⟨bs, henc, hhold⟩
    · cases hstatus
    · cases hstatus
  · rintro ⟨bs, henc, hhold⟩
    rw [exec_decodeOp_of_encodedInteger hphase henc hhold] at h
    cases h
    rfl

/-- A failed operation is one `raise` after START (60_exceptions.md R200, R201). -/
theorem exec_decodeOp_failed {op : OpBit} {s t : State} (h : exec (decodeOp op) s = .next t)
    (hfailed : t.phase = .failed) : ∃ k, t = raise k (startOperation op s) := by
  obtain ⟨-, ⟨v, c, rfl⟩ | hraise⟩ := exec_decodeOp_next h
  · cases hfailed
  · exact hraise

/-- A completed operation found an encoded integer at the cursor. -/
theorem exec_decodeOp_done {op : OpBit} {s t : State} (h : exec (decodeOp op) s = .next t) (hdone : t.phase = .done) :
    ∃ bs, encodedInteger op bs = true ∧ holdsAt s s.cursor bs = true ∧
      t = succeed (busValue op bs) (s.cursor + bs.length) (startOperation op s) := by
  obtain ⟨-, hsuccess | ⟨-, rfl⟩ | ⟨-, rfl⟩⟩ := exec_decodeOp_cases h
  · exact hsuccess
  · cases hdone
  · cases hdone

/-- A state with the same cursor and the same bytes for the operation to inspect meets the same outcome
(40_var_int_32.md R117, 41_var_long_64.md section 5). -/
theorem exec_decodeOp_outcome_eq {op : OpBit} {s s' t t' : State} (hcursor : s.cursor = s'.cursor)
    (hremain : min (Config.maxb op) (s.len - s.cursor) = min (Config.maxb op) (s'.len - s'.cursor))
    (hbytes : ∀ i < min (Config.maxb op) (s.len - s.cursor), s.byteAt (s.cursor + i) = s'.byteAt (s'.cursor + i))
    (h : exec (decodeOp op) s = .next t) (h' : exec (decodeOp op) s' = .next t') :
    t.phase = t'.phase ∧ t.status = t'.status ∧ t.value = t'.value ∧ t.cursor = t'.cursor := by
  rw [exec_decodeOp_ready op (exec_decodeOp_next h).1] at h
  rw [exec_decodeOp_ready op (exec_decodeOp_next h').1, ← hcursor,
    ← decodeLoop_congr (s := s) 0 0 (fun i hi => by omega) fun i hi hlt => by rw [hbytes i (by omega), hcursor]] at h'
  exact finish_outcome_eq hcursor h h'

/-- A failure leaves nothing that the same operation would find different (60_exceptions.md R204). -/
theorem exec_decodeOp_retry {op : OpBit} {s : State} {k : ErrorKind}
    (h : exec (decodeOp op) s = .next (raise k (startOperation op s))) :
    exec (decodeOp op) (raise k (startOperation op s)) = .next (raise k (startOperation op s)) := by
  have hphase : (raise k (startOperation op s)).phase ≠ .reading := nofun
  rw [exec_decodeOp_ready op (exec_decodeOp_next h).1] at h
  obtain ⟨v, c, -, hsucceed⟩ | ⟨k', hloop, hraise⟩ := finish_next h
  · cases congrArg State.phase hsucceed
  · obtain rfl : k = k' := Status.error.inj (congrArg State.status hraise)
    rw [exec_decodeOp_ready op hphase, decodeLoop_raise, decodeLoop_startOperation]
    exact congrArg (finish (onBus op) _) hloop

end Sys2Proof.Machine
end

section
/-! The obligations on the outcomes of the whole operations. -/

namespace Sys2Proof.Proofs

open Sys2Proof.Machine Sys2Proof.Safety

/-- Settles O9: a too-long list of bytes and only that ends the 32-bit loop at its limit; the 64-bit one has its own kind. -/
theorem varIntTooLongExactly : Obligations.VarIntTooLongExactly := by
  intro s hphase
  obtain ⟨t, h, -⟩ := exec_decodeOp_ended 1 hphase
  refine ⟨exec_decodeOp_tooLong_exactly 0 hphase, t, h, ?_⟩
  obtain hstatus | hstatus | hstatus := exec_decodeVarLong_status h <;> simp [hstatus]

/-- Settles O10: as for the 32-bit operation, with ten bytes. -/
theorem varLongTooLongExactly : Obligations.VarLongTooLongExactly := by
  intro s hphase
  obtain ⟨t, h, -⟩ := exec_decodeOp_ended 0 hphase
  refine ⟨exec_decodeOp_tooLong_exactly 1 hphase, t, h, ?_⟩
  obtain hstatus | hstatus | hstatus := exec_decodeVarInt_status h <;> simp [hstatus]

/-- Settles O11, for both operations at once. -/
theorem endOfBufferExactly : Obligations.EndOfBufferExactly :=
  fun _ hphase => ⟨exec_decodeOp_endOfBuffer_exactly 0 hphase, exec_decodeOp_endOfBuffer_exactly 1 hphase⟩

/-- Settles O12: what stands at the cursor decides the outcome. -/
theorem successExactlyOnEncodedIntegers : Obligations.SuccessExactlyOnEncodedIntegers := by
  intro op s hphase
  obtain ⟨t, h, -⟩ := exec_decodeOp_ended op hphase
  refine ⟨t, h, exec_decodeOp_ok_iff h, ?_⟩
  obtain ⟨-, ⟨v, c, rfl⟩ | ⟨k, rfl⟩⟩ := exec_decodeOp_next h
  · exact .inl ⟨rfl, rfl⟩
  · exact .inr ⟨rfl, nofun⟩

/-- Settles O17: a success moves the cursor by the length of the encoded integer it found in the buffer. -/
theorem cursorAdvancesWithinBuffer : Obligations.CursorAdvancesWithinBuffer := by
  intro op s t h
  obtain ⟨-, ⟨bs, henc, hhold, rfl⟩ | ⟨-, rfl⟩ | ⟨-, rfl⟩⟩ := exec_decodeOp_cases h
  · obtain ⟨hlen, hend⟩ := (encodedInteger_iff op bs).mp henc
    have hpos : 1 ≤ bs.length := length_pos_of_endsWithLast hend
    have hbuffer : s.cursor + bs.length ≤ s.len := add_length_le_of_holdsAt hend hhold
    exact ⟨fun _ => ⟨Nat.add_le_add_left hpos _, Nat.add_le_add_left hlen _, hbuffer⟩, nofun, fun _ => hbuffer⟩
  · exact ⟨nofun, fun _ => rfl, id⟩
  · exact ⟨nofun, fun _ => rfl, id⟩

/-- Settles O18: a failure is START and `raise`, which the view shows as the failed one. -/
theorem failureIsPrecise : Obligations.FailureIsPrecise := by
  intro op s t h hfailed
  obtain ⟨k, rfl⟩ := exec_decodeOp_failed h hfailed
  exact ⟨k, rfl, rfl⟩

/-- Settles O19: the failed state has the cursor, the buffer and what START writes as they were. -/
theorem retryFailsTheSame : Obligations.RetryFailsTheSame := by
  intro op s t h hfailed
  obtain ⟨k, rfl⟩ := exec_decodeOp_failed h hfailed
  exact exec_decodeOp_retry h

/-- Settles O21: the ten passes see the same bytes. -/
theorem decodeVarLongDependsOnInspectedBytes : Obligations.DecodeVarLongDependsOnInspectedBytes :=
  fun _ _ _ _ hcursor hremain hbytes => exec_decodeOp_outcome_eq (op := 1) hcursor hremain hbytes

/-- Settles O16: both outcomes keep what START wrote. -/
theorem hiddenRegistersAfterOperation : Obligations.HiddenRegistersAfterOperation := by
  intro op s t h
  obtain ⟨-, ⟨v, c, rfl⟩ | ⟨k, rfl⟩⟩ := exec_decodeOp_next h
  · exact ⟨rfl, rfl, rfl, rfl, rfl⟩
  · exact ⟨rfl, rfl, rfl, rfl, rfl⟩

/-- Settles O14: a ready block answers a next state, a READING one the refusal. -/
theorem operationRefusedExactlyWhileReading : Obligations.OperationRefusedExactlyWhileReading := by
  intro s
  have hop (op : OpBit) : exec (decodeOp op) s = .refused .operationWhileReading ↔ s.phase = .reading := by
    refine ⟨fun h => ?_, fun h => by rw [exec_decodeOp_eq, if_pos h]⟩
    by_contra hphase
    obtain ⟨t, ht, -⟩ := exec_decodeOp_ended op hphase
    cases h.symm.trans ht
  exact ⟨hop 0, hop 1⟩

end Sys2Proof.Proofs
end

section
/-! The number that stands on the bus after a success (10_state.md R22; 40_var_int_32.md R104; 41_var_long_64.md R134). -/

namespace Sys2Proof.Safety

open Sys2Proof.Machine

theorem busValue_zero (bs : List Byte) : busValue 0 bs = packInt (assembled 32 0 bs) := onBus_zero _

theorem busValue_one (bs : List Byte) : busValue 1 bs = assembled 64 0 bs := onBus_one _

/-- Sign extension to the bus keeps the signed reading. -/
theorem packInt_toInt (v : BitVec 32) : (packInt v).toInt = v.toInt := BitVec.toInt_signExtend_of_le (by decide)

theorem busValue_toInt (op : OpBit) (bs : List Byte) : (busValue op bs).toInt = denoted op bs := by
  obtain rfl | rfl := opBit_cases op
  · rw [busValue_zero, packInt_toInt, denoted, if_pos rfl]
  · rw [busValue_one, denoted, if_neg (by decide)]

/-- A number reads as itself, signed, exactly when it fits below the sign bit. -/
theorem toInt_ofNat_eq_iff (w n : Nat) : (BitVec.ofNat w n).toInt = n ↔ 2 * n < 2 ^ w := by
  have hmod : n % 2 ^ w < 2 ^ w := Nat.mod_lt _ (by positivity)
  rw [BitVec.toInt_eq_toNat_cond, BitVec.toNat_ofNat]
  constructor
  · intro h
    split at h
    · have hn : n % 2 ^ w = n := by exact_mod_cast h
      omega
    · have : ((2 ^ w : Nat) : Int) > (n % 2 ^ w : Nat) := by exact_mod_cast hmod
      omega
  · intro h
    rw [Nat.mod_eq_of_lt (by omega), if_pos h]

theorem segmentSum_lt_of_length_le {bs : List Byte} {n : Nat} (h : bs.length ≤ n) : segmentSum bs < 128 ^ n :=
  (segmentSum_lt bs).trans_le (Nat.pow_le_pow_right (by decide) h)

/-- An encoded integer too short to reach the sign bit denotes the sum of its segments. -/
theorem denoted_of_lt {op : OpBit} {bs : List Byte} (h : 2 * segmentSum bs < 2 ^ Config.width op) :
    denoted op bs = segmentSum bs := by
  obtain rfl | rfl := opBit_cases op
  · rw [denoted, if_pos rfl, assembled_zero]
    exact (toInt_ofNat_eq_iff 32 _).mpr h
  · rw [denoted, if_neg (by decide), assembled_zero]
    exact (toInt_ofNat_eq_iff 64 _).mpr h

/-- Fewer than `MAXB` segments do not reach the sign bit (40_var_int_32.md section 3, 41_var_long_64.md section 3). -/
theorem denoted_nonneg {op : OpBit} {bs : List Byte} (h : bs.length < Config.maxb op) : 0 ≤ denoted op bs := by
  have hbelow : 2 * segmentSum bs < 2 ^ Config.width op := by
    obtain rfl | rfl := opBit_cases op
    · have : segmentSum bs < 128 ^ 4 := segmentSum_lt_of_length_le (Nat.le_of_lt_succ h)
      show 2 * segmentSum bs < 2 ^ 32
      omega
    · have : segmentSum bs < 128 ^ 9 := segmentSum_lt_of_length_le (Nat.le_of_lt_succ h)
      show 2 * segmentSum bs < 2 ^ 64
      omega
  rw [denoted_of_lt hbelow]
  exact Int.natCast_nonneg _

/-- Numbers that agree modulo 2^w give one list of bytes' value for the other's. -/
theorem assembled_eq_of_mod_eq {w : Nat} {bs cs : List Byte} (h : segmentSum bs % 2 ^ w = segmentSum cs % 2 ^ w) :
    assembled w 0 bs = assembled w 0 cs := by
  rw [assembled_zero, assembled_zero]
  exact BitVec.eq_of_toNat_eq (by simpa using h)

theorem segmentSum_append_last (bs : List Byte) (b : Byte) :
    segmentSum (bs ++ [b]) = segmentSum bs + 128 ^ bs.length * (b.toNat % 128) := by
  rw [segmentSum_append, segmentSum, segmentSum, Nat.mul_zero, Nat.add_zero]

theorem mod_eq_of_and_eq {b b' : Byte} {n : Nat} (hn : 2 ^ n ≤ 2 ^ 8)
    (h : b &&& BitVec.ofNat 8 (2 ^ n - 1) = b' &&& BitVec.ofNat 8 (2 ^ n - 1)) :
    b.toNat % 2 ^ n = b'.toNat % 2 ^ n := by
  have hmask : (2 ^ n - 1) % 2 ^ 8 = 2 ^ n - 1 := Nat.mod_eq_of_lt (by omega)
  simpa only [BitVec.toNat_and, BitVec.toNat_ofNat, hmask, Nat.and_two_pow_sub_one_eq_mod] using congrArg BitVec.toNat h

theorem holdsAt_of_same_buffer {s s' : State} (hmem : s.mem = s'.mem) (hlen : s.len = s'.len) (a : Nat)
    (bs : List Byte) : holdsAt s a bs = holdsAt s' a bs := by
  induction bs generalizing a with
  | nil => rfl
  | cons b bs ih => rw [holdsAt, holdsAt, ih, hlen, State.byteAt, hmem, State.byteAt]

theorem holdsAt_append (s : State) (a : Nat) (bs cs : List Byte) :
    holdsAt s a (bs ++ cs) = true ↔ holdsAt s a bs = true ∧ holdsAt s (a + bs.length) cs = true := by
  induction bs generalizing a with
  | nil => simp [holdsAt]
  | cons b bs ih =>
    rw [List.cons_append, holdsAt_cons, holdsAt_cons, ih, List.length_cons, Nat.add_right_comm, Nat.add_assoc a]
    tauto

/-- The topmost segment of an encoded integer, and what stands below it. -/
theorem segmentSum_of_holdsAt {s : State} {ptr n : Nat} {bs : List Byte} (hhold : holdsAt s ptr bs = true)
    (hlen : bs.length = n + 1) :
    ∃ low < 128 ^ n, segmentSum bs = low + 128 ^ n * ((s.byteAt (ptr + n)).toNat % 128) := by
  obtain rfl | ⟨cs, b, rfl⟩ := List.eq_nil_or_concat' bs
  · cases hlen
  · obtain rfl : cs.length = n := by simpa using hlen
    obtain ⟨-, htop⟩ := (holdsAt_append s ptr cs [b]).mp hhold
    obtain ⟨-, hb, -⟩ := (holdsAt_cons _ _ _ _).mp htop
    exact ⟨_, segmentSum_lt cs, by rw [segmentSum_append_last, hb]⟩

end Sys2Proof.Safety
end

section
/-! Two operations on one cursor, and the two operations on the same bytes. -/

namespace Sys2Proof.Machine

open Sys2Proof.Safety

/-- An encoded 32-bit integer is an encoded 64-bit one (41_var_long_64.md R147). -/
theorem encodedInteger_one_of_zero {bs : List Byte} (h : encodedInteger 0 bs = true) : encodedInteger 1 bs = true := by
  obtain ⟨hlen, hend⟩ := (encodedInteger_iff 0 bs).mp h
  exact (encodedInteger_iff 1 bs).mpr ⟨hlen.trans (by decide), hend⟩

/-- Below the limit the 64-bit assembly is the sum of the segments, not cut. -/
theorem assembled_toNat_of_encodedInteger {bs : List Byte} (h : encodedInteger 0 bs = true) :
    (assembled 64 0 bs).toNat = segmentSum bs := by
  obtain ⟨hlen, -⟩ := (encodedInteger_iff 0 bs).mp h
  have hsum : segmentSum bs < 128 ^ 5 := segmentSum_lt_of_length_le hlen
  rw [assembled_zero, BitVec.toNat_ofNat, Nat.mod_eq_of_lt (by omega)]

theorem assembled_setWidth (bs : List Byte) : (assembled 64 0 bs).setWidth 32 = assembled 32 0 bs := by
  rw [assembled_zero, assembled_zero]
  exact BitVec.setWidth_ofNat_of_le (by decide) _

/-- The bits that the 64-bit operation reads above bit 31 are those of the fifth segment (41_var_long_64.md R147). -/
theorem assembled_high_bits {s : State} {ptr : Nat} {bs : List Byte} (henc : encodedInteger 0 bs = true)
    (hhold : holdsAt s ptr bs = true) (hlen : bs.length = 5) :
    (assembled 64 0 bs).extractLsb' 32 3 = (s.byteAt (ptr + 4)).extractLsb' 4 3 := by
  obtain ⟨low, hlow, hsum⟩ := segmentSum_of_holdsAt hhold hlen
  apply BitVec.eq_of_toNat_eq
  rw [BitVec.extractLsb'_toNat, BitVec.extractLsb'_toNat, assembled_toNat_of_encodedInteger henc,
    Nat.shiftRight_eq_div_pow, Nat.shiftRight_eq_div_pow]
  omega

/-- The two operations denote the same integer exactly when no segment bit reaches the 32-bit sign or stands above it
(41_var_long_64.md R147). -/
theorem denoted_one_eq_zero_iff {s : State} {ptr : Nat} {bs : List Byte} (henc : encodedInteger 0 bs = true)
    (hhold : holdsAt s ptr bs = true) :
    denoted 1 bs = denoted 0 bs ↔ bs.length < 5 ∨ (s.byteAt (ptr + 4)).extractLsb' 3 4 = 0 := by
  obtain ⟨hlen, -⟩ := (encodedInteger_iff 0 bs).mp henc
  have hlen5 : bs.length ≤ 5 := hlen
  have hsum : segmentSum bs < 128 ^ 5 := segmentSum_lt_of_length_le hlen
  have hwide : denoted 1 bs = segmentSum bs := denoted_of_lt (show 2 * segmentSum bs < 2 ^ 64 by omega)
  have hnarrow : denoted 1 bs = denoted 0 bs ↔ 2 * segmentSum bs < 2 ^ 32 := by
    rw [hwide, denoted, if_pos rfl, assembled_zero, eq_comm, toInt_ofNat_eq_iff]
  rw [hnarrow]
  obtain hshort | hfull := Nat.lt_or_eq_of_le hlen5
  · have : segmentSum bs < 128 ^ 4 := segmentSum_lt_of_length_le (Nat.le_of_lt_succ hshort)
    exact iff_of_true (by omega) (.inl hshort)
  · obtain ⟨low, hlow, htop⟩ := segmentSum_of_holdsAt hhold hfull
    have hbits : (s.byteAt (ptr + 4)).extractLsb' 3 4 = 0 ↔ (s.byteAt (ptr + 4)).toNat / 8 % 16 = 0 := by
      rw [← BitVec.toNat_inj, BitVec.extractLsb'_toNat, Nat.shiftRight_eq_div_pow]
      rfl
    rw [hbits]
    omega

/-- On `MAXB` bytes of which only the last has bit 7 clear an operation succeeds (30_encoding.md R80). -/
theorem exec_decodeOp_of_full_length {op : OpBit} {s : State} {bs : List Byte} {b : Byte} (hphase : s.phase ≠ .reading)
    (hall : allContinue bs = true) (hb : continues b = false) (hfull : bs.length + 1 = Config.maxb op)
    (hhold : holdsAt s s.cursor (bs ++ [b]) = true) :
    exec (decodeOp op) s =
      .next (succeed (busValue op (bs ++ [b])) (s.cursor + Config.maxb op) (startOperation op s)) := by
  have hlen : (bs ++ [b]).length = Config.maxb op := List.length_append.trans hfull
  have henc : encodedInteger op (bs ++ [b]) = true :=
    (encodedInteger_iff _ _).mpr ⟨hlen.le, endsWithLast_append_last hall hb⟩
  rw [exec_decodeOp_of_encodedInteger hphase henc hhold, hlen]

theorem step_operation {s : State} {op : OpBit} {moves : List HostMove} (hhost : s.host = .operation op :: moves) :
    step s = exec (decodeOp op) (takeMove moves s) :=
  step_move hhost

theorem step_operation_of_encodedInteger {s : State} {op : OpBit} {moves : List HostMove} {bs : List Byte}
    (hhost : s.host = .operation op :: moves) (hphase : s.phase ≠ .reading) (henc : encodedInteger op bs = true)
    (hhold : holdsAt s s.cursor bs = true) :
    step s = .next (succeed (busValue op bs) (s.cursor + bs.length) (startOperation op (takeMove moves s))) := by
  rw [holdsAt_of_same_buffer (s := s) (s' := takeMove moves s) rfl rfl] at hhold
  exact (step_operation hhost).trans (exec_decodeOp_of_encodedInteger (s := takeMove moves s) hphase henc hhold)

/-- A successful operation is one outcome of the run: the integer its bytes denote (70_reset_and_hazards.md R238). -/
theorem outcomes_of_operation {s : State} {op : OpBit} {moves : List HostMove} {bs : List Byte} {c : Nat}
    (hhost : s.host = .operation op :: moves)
    (hstep : step s = .next (succeed (busValue op bs) c (startOperation op (takeMove moves s)))) (n : Nat) :
    outcomes (n + 1) s =
      .ok (denoted op bs) c :: outcomes n (succeed (busValue op bs) c (startOperation op (takeMove moves s))) := by
  rw [outcomes, hstep, ← busValue_toInt]
  simp [endsOperation, hhost, observed]

end Sys2Proof.Machine
end

section
/-! The obligations on the values of the two operations. -/

namespace Sys2Proof.Proofs

open Sys2Proof.Machine Sys2Proof.Safety

/-- Settles O22: below bit `W` the two last segments are the same. -/
theorem excessBitsAreIgnored : Obligations.ExcessBitsAreIgnored := by
  intro bs b b' hall hb hb'
  refine ⟨fun s s' hphase hphase' hlen hmask hhold hhold' => ?_, fun s s' hphase hphase' hlen hmask hhold hhold' => ?_⟩
  · have hfull : bs.length + 1 = Config.maxb 0 := congrArg (· + 1) hlen
    have hlow : b.toNat % 2 ^ 4 = b'.toNat % 2 ^ 4 := mod_eq_of_and_eq (by decide) hmask
    refine ⟨_, _, exec_decodeOp_of_full_length hphase hall hb hfull hhold,
      exec_decodeOp_of_full_length hphase' hall hb' hfull hhold', rfl, rfl, ?_, rfl, rfl⟩
    rw [succeed_value, succeed_value, busValue_zero, busValue_zero]
    refine congrArg packInt (assembled_eq_of_mod_eq ?_)
    rw [segmentSum_append_last, segmentSum_append_last, hlen]
    omega
  · have hfull : bs.length + 1 = Config.maxb 1 := congrArg (· + 1) hlen
    have hlow : b.toNat % 2 ^ 1 = b'.toNat % 2 ^ 1 := mod_eq_of_and_eq (by decide) hmask
    refine ⟨_, _, exec_decodeOp_of_full_length hphase hall hb hfull hhold,
      exec_decodeOp_of_full_length hphase' hall hb' hfull hhold', rfl, rfl, ?_, rfl, rfl⟩
    rw [succeed_value, succeed_value, busValue_one, busValue_one]
    refine assembled_eq_of_mod_eq ?_
    rw [segmentSum_append_last, segmentSum_append_last, hlen]
    omega

/-- Settles O23: fewer than `MAXB` bytes denote no negative integer. -/
theorem negativeOnlyAtFullLength : Obligations.NegativeOnlyAtFullLength := by
  have hop (op : OpBit) (s t : State) (h : exec (decodeOp op) s = .next t) (hdone : t.phase = .done)
      (hneg : t.value.toInt < 0) : t.cursor = s.cursor + Config.maxb op := by
    obtain ⟨bs, henc, -, rfl⟩ := exec_decodeOp_done h hdone
    obtain ⟨hlen, -⟩ := (encodedInteger_iff op bs).mp henc
    rw [succeed_value, busValue_toInt] at hneg
    obtain hshort | hfull := Nat.lt_or_eq_of_le hlen
    · exact absurd (denoted_nonneg hshort) (Int.not_le.mpr hneg)
    · rw [succeed_cursor, hfull]
  exact ⟨hop 0, hop 1⟩

/-- Settles O24: the bus holds the packed 32-bit result. -/
theorem intResultIsSignExtended : Obligations.IntResultIsSignExtended := by
  intro s t h hdone
  obtain ⟨bs, -, -, rfl⟩ := exec_decodeOp_done (op := 0) h hdone
  rw [succeed_value, busValue_zero]
  exact ⟨packInt_eq_signExtend _, by rw [packInt_setWidth, packInt_toInt]⟩

/-- Settles O25: a 32-bit encoding is a 64-bit one of the same bytes; where the 32-bit operation fails, the 64-bit one meets
the same end of the buffer or needs a sixth byte. -/
theorem longExtendsIntOnTheSameBytes : Obligations.LongExtendsIntOnTheSameBytes := by
  intro s ti tl hi hl
  have hphase : s.phase ≠ .reading := (exec_decodeOp_next (op := 0) hi).1
  refine ⟨fun hdone => ?_, fun hstatus => ?_, fun hstatus hdone => ?_⟩
  · obtain ⟨bs, henc, hhold, rfl⟩ := exec_decodeOp_done (op := 0) hi hdone
    have hlong := exec_decodeOp_of_encodedInteger hphase (encodedInteger_one_of_zero henc) hhold
    cases hl.symm.trans hlong
    obtain ⟨hlen, -⟩ := (encodedInteger_iff 0 bs).mp henc
    simp only [succeed_cursor, succeed_value, busValue_toInt, Nat.add_lt_add_iff_left, Nat.add_left_cancel_iff]
    rw [busValue_zero, busValue_one, packInt_setWidth, assembled_toNat_of_encodedInteger henc]
    exact ⟨rfl, trivial, assembled_setWidth bs, segmentSum_lt_of_length_le hlen, assembled_high_bits henc hhold,
      fun hshort => segmentSum_lt_of_length_le (n := 4) (Nat.le_of_lt_succ hshort), denoted_one_eq_zero_iff henc hhold⟩
  · obtain ⟨hremain, hall⟩ := (exec_decodeOp_endOfBuffer_iff (op := 0) hi).mp hstatus
    exact (exec_decodeOp_endOfBuffer_iff (op := 1) hl).mpr ⟨hremain.trans_le (by decide), hall⟩
  · obtain ⟨bs, henc, hhold, rfl⟩ := exec_decodeOp_done (op := 1) hl hdone
    obtain ⟨-, hend⟩ := (encodedInteger_iff 1 bs).mp henc
    have hlong : ¬ bs.length ≤ 5 := fun hshort => by
      have hok := (exec_decodeOp_ok_iff (op := 0) hi).mpr ⟨bs, (encodedInteger_iff 0 bs).mpr ⟨hshort, hend⟩, hhold⟩
      cases hok.symm.trans hstatus
    rw [succeed_cursor]
    omega

/-- Settles O29: the first operation leaves the cursor at the second integer and the buffer as it was. -/
theorem consecutiveIntegersDecodeInTurn : Obligations.ConsecutiveIntegersDecodeInTurn := by
  intro s op op' bs bs' rest hphase henc henc' hhold hhost
  obtain ⟨hfirst, hsecond⟩ := (holdsAt_append s s.cursor bs bs').mp hhold
  have hstep := step_operation_of_encodedInteger hhost hphase henc hfirst
  set t := succeed (busValue op bs) (s.cursor + bs.length) (startOperation op (takeMove (.operation op' :: rest) s))
  have hhost' : t.host = .operation op' :: rest := rfl
  rw [holdsAt_of_same_buffer (s := s) (s' := t) rfl rfl] at hsecond
  have hstep' := step_operation_of_encodedInteger hhost' nofun henc' hsecond
  refine ⟨?_, _, (steps_succ hstep 1).trans (steps_succ hstep' 0), rfl, rfl, rfl, rfl⟩
  rw [outcomes_of_operation hhost hstep, outcomes_of_operation hhost' hstep']
  rfl

end Sys2Proof.Proofs
end

section
/-! The reads of the byte-serial run (20_memory.md R56). -/

namespace Sys2Proof.Machine

open Sys2Proof.Safety

theorem stepRead_in_buffer {s : State} (hphase : s.phase = .reading) (hhost : s.host = []) (hl : s.ptr < s.len) :
    stepRead s = some s.ptr := by
  simp [stepRead, blockMoves, hhost, State.memEnable, State.memAddr, hphase, hl]

/-- A step that ends the operation is the last that reads, and the idle block keeps its outcome. -/
theorem run_of_ending_step {s t : State} (hhost : s.host = []) (hstep : step s = .next t)
    (hend : t.phase = .done ∨ t.phase = .failed) (n : Nat) :
    steps (n + 1) s = .next t ∧ readTrace (n + 1) s = (stepRead s).toList := by
  have hphase : t.phase ≠ .reading := not_reading_of_ended hend
  have hhost' : t.host = [] := step_no_move_host hhost hstep
  rw [steps_succ hstep, readTrace_succ hstep, readTrace_idle hphase hhost', List.append_nil]
  exact ⟨steps_idle hphase hhost' n, rfl⟩

/-- The number `r` of bytes that an operation read from `ptr` on fits its outcome, `n` being what it might have read. -/
def ReadsFit (op : OpBit) (s : State) (n r : Nat) (t : State) : Prop :=
  (r ≠ 0 → s.ptr + r ≤ s.len) ∧ (t.phase = .done → t.cursor = s.ptr + r) ∧
    (t.status = .error (tooLong op) → r = n) ∧
    (t.status = .error .unexpectedEndOfBuffer → r = s.len - s.ptr ∧ r < n)

/-- From an operation in progress the run reads consecutive bytes, as many as its outcome tells. -/
theorem inProgress_reads {n : Nat} {s : State} (hs : InProgress s) (hn : s.cnt + n = Config.maxb s.opq) :
    ∃ r t, steps n s = .next t ∧ readTrace n s = List.range' s.ptr r ∧ ReadsFit s.opq s n r t := by
  induction n generalizing s with
  | zero =>
    obtain ⟨-, -, -, hbelow⟩ := hs
    omega
  | succ n ih =>
    have ⟨hphase, hhost, _, _⟩ := hs
    obtain ⟨hge, hstep⟩ | ⟨hlt, -, hlast, hstep⟩ | ⟨hlt, -, hnext, hstep⟩ | ⟨hlt, -, hstep⟩ :=
      inProgress_step_cases hs
    · obtain ⟨hsteps, htrace⟩ := run_of_ending_step hhost hstep (.inr rfl) n
      rw [stepRead_at_end hge] at htrace
      exact ⟨0, _, hsteps, htrace, nofun, nofun,
        fun h => absurd (Status.error.inj h).symm (tooLong_ne_endOfBuffer s.opq), fun _ => ⟨by omega, by omega⟩⟩
    · obtain ⟨hsteps, htrace⟩ := run_of_ending_step hhost hstep (.inr rfl) n
      rw [stepRead_in_buffer hphase hhost hlt] at htrace
      exact ⟨1, _, hsteps, htrace, fun _ => hlt, nofun, fun _ => by omega,
        fun h => absurd (Status.error.inj h) (tooLong_ne_endOfBuffer s.opq)⟩
    · obtain ⟨r, t, hsteps, htrace, hbuffer, hdone, htoo, hrest⟩ := ih hnext ((Nat.add_right_comm s.cnt 1 n).trans hn)
      simp only [advance_ptr, advance_len] at hbuffer hdone htoo hrest htrace
      refine ⟨r + 1, t, (steps_succ hstep n).trans hsteps, ?_, fun _ => by omega, fun h => by rw [hdone h]; omega,
        fun h => by rw [htoo h], fun h => ?_⟩
      · rw [readTrace_succ hstep, stepRead_in_buffer hphase hhost hlt, htrace]
        rfl
      · have := hrest h
        omega
    · obtain ⟨hsteps, htrace⟩ := run_of_ending_step hhost hstep (.inl rfl) n
      rw [stepRead_in_buffer hphase hhost hlt] at htrace
      exact ⟨1, _, hsteps, htrace, fun _ => hlt, fun _ => rfl, nofun, nofun⟩

/-- After `MAXB` steps the byte-serial run shows what the whole operation shows (42_byte_serial_machine.md R170). -/
theorem steps_maxb_view (op : OpBit) {s : State} (hphase : s.phase ≠ .reading) (hhost : s.host = []) :
    ∃ t u, steps (Config.maxb op) (startOperation op s) = .next t ∧ exec (decodeOp op) s = .next u ∧ view u = view t := by
  obtain ⟨n, t, u, hn, ⟨hsteps, hend, -⟩, hexec, hview⟩ := endsAfter_view_eq_exec op hphase hhost
  have hhost' : t.host = [] := steps_no_move_host (s := startOperation op s) hhost hsteps
  obtain ⟨m, hm⟩ : ∃ m, Config.maxb op = n + m := Nat.exists_eq_add_of_le hn
  exact ⟨t, u, by rw [hm, steps_add hsteps, steps_idle (not_reading_of_ended hend) hhost'], hexec, hview⟩

end Sys2Proof.Machine
end

section
/-! The obligation of 20_memory.md section 4 on the reads. -/

namespace Sys2Proof.Proofs

open Sys2Proof.Machine Sys2Proof.Safety

/-- Settles O39: the run from START reads byte after byte, and its end shows the outcome of the whole operation. -/
theorem readsAreInOrderAndCounted : Obligations.ReadsAreInOrderAndCounted := by
  intro op s hphase hhost
  obtain ⟨t, u, hsteps, hexec, hview⟩ := steps_maxb_view op hphase hhost
  obtain ⟨r, t', hsteps', htrace, hbuffer, hdone, htoo, hrest⟩ :=
    inProgress_reads (inProgress_startOperation op hhost) (Nat.zero_add _)
  cases hsteps.symm.trans hsteps'
  have hvphase : u.phase = t.phase := congrArg View.phase hview
  have hvcursor : u.cursor = t.cursor := congrArg View.cursor hview
  have hvstatus : u.status = t.status := congrArg View.status hview
  rw [← hvphase, ← hvcursor] at hdone
  rw [← hvstatus] at htoo hrest
  exact ⟨r, u, hexec, htrace, hbuffer, hdone, htoo, hrest⟩

end Sys2Proof.Proofs
end

section
/-! The host's moves (10_state.md R33, 42_byte_serial_machine.md section 2, 70_reset_and_hazards.md): one equation for the
step of each. -/

namespace Sys2Proof.Machine

open Sys2Proof.Safety

theorem whenReady_ready {s s' : State} (r : Refusal) (h : s.phase ≠ .reading) :
    runFetched (whenReady s r s') = .next s' := by
  rw [whenReady, if_neg h, runFetched]

theorem whenReady_reading {s s' : State} (r : Refusal) (h : s.phase = .reading) :
    runFetched (whenReady s r s') = .refused r := by
  rw [whenReady, if_pos h, runFetched]

theorem blockTurn_idle {s : State} (h : s.phase ≠ .reading) : runFetched (blockTurn s) = .next s := by
  rw [blockTurn, if_pos h, runFetched]

section
variable {s : State} {moves : List HostMove}

theorem blockMoves_iff (s : State) : blockMoves s = true ↔ s.host = [] ∨ ∃ moves, s.host = .wait :: moves := by
  rw [blockMoves]
  split
  · next hhost => simp [hhost]
  · next hhost => simp [hhost]
  · next hnil hwait =>
    refine iff_of_false nofun ?_
    rintro (hhost | ⟨moves, hhost⟩)
    · exact hnil hhost
    · exact hwait moves hhost

/-- A waiting host leaves the turn to the block. -/
theorem step_wait (hhost : s.host = .wait :: moves) : step s = runFetched (blockTurn (takeMove moves s)) :=
  step_move hhost

theorem step_reset (hhost : s.host = .reset :: moves) : step s = .next (resetBlock (takeMove moves s)) :=
  step_move hhost

theorem step_present {bs : List Byte} (hhost : s.host = .present bs :: moves) :
    step s = runFetched (whenReady (takeMove moves s) .bufferWriteWhileReading (present bs (takeMove moves s))) :=
  step_move hhost

theorem step_edit {a : Nat} {b : Byte} (hhost : s.host = .edit a b :: moves) (ha : a < s.len) :
    step s = runFetched (whenReady (takeMove moves s) .bufferWriteWhileReading (edit a b (takeMove moves s))) :=
  (step_move hhost).trans (congrArg runFetched (if_pos ha))

theorem step_setCursor {n : Nat} (hhost : s.host = .setCursor n :: moves) :
    step s = runFetched (whenReady (takeMove moves s) .cursorWriteWhileReading (setCursor n (takeMove moves s))) :=
  step_move hhost

theorem step_start {op : OpBit} (hhost : s.host = .start op :: moves) :
    step s = runFetched (whenReady (takeMove moves s) .operationWhileReading (startOperation op (takeMove moves s))) :=
  step_move hhost

theorem hostTurn_read (r : HostReg) (s : State) :
    runFetched (hostTurn (.read r) s) = if (hostRead r s).isSome then .next s else .refused (.readNotAllowed r) := by
  rw [hostTurn]
  cases hostRead r s <;> rfl

theorem step_read {r : HostReg} (hhost : s.host = .read r :: moves) :
    step s = if (hostRead r s).isSome then .next (takeMove moves s) else .refused (.readNotAllowed r) :=
  (step_move hhost).trans (hostTurn_read r (takeMove moves s))

end

/-- Outside READING the block keeps its state, and the host's wait is taken (60_exceptions.md R211). -/
theorem step_idle_taken {s : State} (hmoves : blockMoves s = true) (hphase : s.phase ≠ .reading) :
    step s = .next (taken s) := by
  obtain hhost | ⟨moves, hhost⟩ := (blockMoves_iff s).mp hmoves
  · rw [step_idle hphase hhost, taken_of_no_move hhost]
  · rw [step_wait hhost, blockTurn_idle (s := takeMove moves s) hphase, taken, hhost, List.tail_cons]

/-- Where the host has the right to read (10_state.md R33). -/
theorem hostRead_isSome_iff (r : HostReg) (s : State) :
    (hostRead r s).isSome = true ↔ r = .phase ∨ (s.phase ≠ .reading ∧ (r = .cursor ∨ r = .value)) ∨
      (r = .status ∧ (s.phase = .done ∨ s.phase = .failed)) := by
  cases r with
  | phase => simp [hostRead]
  | cursor => simp only [hostRead]; split <;> simp [*]
  | value => simp only [hostRead]; split <;> simp [*]
  | status => simp only [hostRead]; split <;> simp [*]

theorem Phase.code_toNat_injective {p q : Phase} (h : p.code.toNat = q.code.toNat) : p = q := by
  revert p q
  simp only [BitVec.toNat_inj]
  intro p q
  cases p <;> cases q <;> decide

theorem tooLong_code_toNat (op : OpBit) : (tooLong op).code.toNat = 2 + op.toNat := by
  obtain rfl | rfl := opBit_cases op <;> decide

end Sys2Proof.Machine

namespace Sys2Proof.Safety

open Sys2Proof.Machine

/-- What stands in the buffer cell by cell stands there as a list. -/
theorem holdsAt_of_forall {s : State} {a : Nat} {bs : List Byte}
    (h : ∀ i < bs.length, a + i < s.len ∧ s.byteAt (a + i) = bs.getD i Memory.unlisted) : holdsAt s a bs = true := by
  induction bs generalizing a with
  | nil => rfl
  | cons b bs ih =>
    obtain ⟨⟨hlt, hb⟩, hrest⟩ := Nat.forall_lt_succ_left.mp h
    refine (holdsAt_cons s a b bs).mpr ⟨hlt, hb, ih fun i hi => ?_⟩
    rw [Nat.add_right_comm]
    exact hrest i hi

theorem holdsAt_present (bs : List Byte) (s : State) : holdsAt (present bs s) 0 bs = true := by
  refine holdsAt_of_forall fun i hi => ⟨by simpa using hi, ?_⟩
  exact Memory.get_ofBytes 0 bs i

theorem byteAt_edit {s : State} (h : MemoryOk s) (a : Nat) (b : Byte) (x : Nat) :
    (edit a b s).byteAt x = if x = a then b else s.byteAt x :=
  Memory.get_set a b h.1 x

end Sys2Proof.Safety
end

section
/-! The obligations on the host's moves and the idle block. -/

namespace Sys2Proof.Proofs

open Sys2Proof.Machine Sys2Proof.Safety

/-- Settles O46: the buffer's read-after-write laws, with the move taken only by a ready block. -/
theorem hostBufferWritesReadBack : Obligations.HostBufferWritesReadBack := by
  refine ⟨fun s bs moves hhost => ⟨fun hphase => ?_, fun hphase => ?_⟩,
    fun s a b moves hhost hmem ha => ⟨fun hphase => ?_, fun hphase => ?_⟩⟩
  · exact ⟨_, (step_present hhost).trans (whenReady_ready _ hphase), rfl, holdsAt_present bs _, rfl⟩
  · exact (step_present hhost).trans (whenReady_reading _ hphase)
  · refine ⟨_, (step_edit hhost ha).trans (whenReady_ready _ hphase), ?_, fun x hx => ?_, rfl⟩
    · exact (byteAt_edit (s := takeMove moves s) hmem a b a).trans (if_pos rfl)
    · exact (byteAt_edit (s := takeMove moves s) hmem a b x).trans (if_neg hx)
  · exact (step_edit hhost ha).trans (whenReady_reading _ hphase)

/-- Settles O42: START needs a ready block. -/
theorem startBeginsAnOperation : Obligations.StartBeginsAnOperation :=
  fun _ _ _ hhost => ⟨fun hphase => (step_start hhost).trans (whenReady_ready _ hphase),
    fun hphase => (step_start hhost).trans (whenReady_reading _ hphase)⟩

/-- Settles O43: `set_cursor` needs a ready block. -/
theorem setCursorWritesOnlyTheCursor : Obligations.SetCursorWritesOnlyTheCursor :=
  fun _ _ _ hhost => ⟨fun hphase => (step_setCursor hhost).trans (whenReady_ready _ hphase),
    fun hphase => (step_setCursor hhost).trans (whenReady_reading _ hphase)⟩

/-- Settles O44: reset asks for no phase. -/
theorem resetMoveRestoresResetValues : Obligations.ResetMoveRestoresResetValues :=
  fun _ _ hhost => step_reset hhost

/-- Settles O45: the fields of the reset state. -/
theorem resetValues : Obligations.ResetValues :=
  ⟨reset_phase, reset_cursor, reset_value, reset_status, reset_opq, reset_acc, reset_off, reset_ptr, reset_cnt,
    reset_len, reset_mem, reset_host⟩

/-- Settles O47: a read is answered exactly where the host has the right. -/
theorem hostReadsChangeNothing : Obligations.HostReadsChangeNothing := by
  intro s r moves hhost
  refine ⟨fun hallowed => ?_, fun hallowed => ?_⟩
  · exact (step_read hhost).trans (if_pos ((hostRead_isSome_iff r s).mpr hallowed))
  · exact (step_read hhost).trans (if_neg (mt (hostRead_isSome_iff r s).mp hallowed))

/-- Settles O48: the invariant says what `value` and `status` hold in each phase. -/
theorem hostReadAnswers : Obligations.HostReadAnswers := by
  rintro s ⟨-, -, -, hidle, hdone, hfailed⟩
  refine ⟨⟨_, rfl, fun s' h => Phase.code_toNat_injective (Option.some.inj h)⟩, fun hphase => if_pos hphase,
    fun hphase => ?_, fun hphase => ?_, fun hphase => ?_⟩
  · obtain ⟨hstatus, -⟩ := hdone hphase
    simp [hostRead, hphase, hstatus, Status.code]
  · obtain ⟨hvalue, hstatus | hstatus⟩ := hfailed hphase
    · simp [hostRead, hphase, hvalue, hstatus, Status.code, ErrorKind.code]
    · simp [hostRead, hphase, hvalue, hstatus, Status.code, tooLong_code_toNat]
  · obtain ⟨hvalue, -⟩ := hidle hphase
    simp [hostRead, hphase, hvalue]

/-- Settles O49: outside READING the block's turn is idle. -/
theorem idleBlockKeepsItsState : Obligations.IdleBlockKeepsItsState := by
  refine fun s hphase => ⟨step_idle hphase, fun moves hhost => ?_⟩
  exact (step_wait hhost).trans (blockTurn_idle (s := takeMove moves s) hphase)

/-- Settles O41: in READING the block's turn fetches the byte at `ptr`; the host's operation is decoded from its bit. -/
theorem stepRunsTheDecodedInstruction : Obligations.StepRunsTheDecodedInstruction := by
  refine ⟨fun s i rest hphase hl hdecode => ?_, fun s op moves hhost => step_operation hhost⟩
  obtain ⟨rfl, -⟩ : decodeByte (s.byteAt s.ptr) = i ∧ rest = rest := by simpa [decode] using hdecode
  refine ⟨fun hhost => step_in_buffer hphase hhost hl, fun moves hhost => ?_⟩
  exact (step_wait hhost).trans (blockTurn_in_buffer (s := takeMove moves s) hphase hl)

end Sys2Proof.Proofs
end

section
/-! Whole-machine rules, read off the cases of a step. -/

namespace Sys2Proof.Machine

open Sys2Proof.Safety

theorem exec_decodeOp_not_reading {op : OpBit} {s t : State} (h : exec (decodeOp op) s = .next t) :
    t.phase ≠ .reading := by
  obtain ⟨-, ⟨v, c, rfl⟩ | ⟨k, rfl⟩⟩ := exec_decodeOp_next h <;> nofun

theorem exec_decodeOp_mem_len {op : OpBit} {s t : State} (h : exec (decodeOp op) s = .next t) :
    t.mem = s.mem ∧ t.len = s.len := by
  obtain ⟨-, ⟨v, c, rfl⟩ | ⟨k, rfl⟩⟩ := exec_decodeOp_next h <;> exact ⟨rfl, rfl⟩

theorem exec_decodeOp_ne_fault (op : OpBit) (s : State) (f : Fault) : exec (decodeOp op) s ≠ .fault f := by
  by_cases hphase : s.phase = .reading
  · rw [exec_decodeOp_eq, if_pos hphase]
    nofun
  · obtain ⟨t, h, -⟩ := exec_decodeOp_ended op hphase
    rw [h]
    nofun

theorem byteStep_ne_fault (s s' : State) (f : Fault) : byteStep s s' ≠ .fault f := by
  rw [byteStep]
  split
  · nofun
  · split <;> nofun

theorem exec_ne_fault (i : Instr) (s : State) (f : Fault) : exec i s ≠ .fault f := by
  cases i with
  | decodeVarInt => exact exec_decodeOp_ne_fault 0 s f
  | decodeVarLong => exact exec_decodeOp_ne_fault 1 s f
  | cont g => exact byteStep_ne_fault s _ f
  | last g => exact byteStep_ne_fault s _ f

theorem blockTurn_ne_fault (s : State) (f : Fault) : runFetched (blockTurn s) ≠ .fault f := by
  obtain ⟨-, h⟩ | ⟨-, -, h⟩ | ⟨-, -, h⟩ := blockTurn_cases s <;> rw [h, runFetched]
  · nofun
  · exact exec_ne_fault _ s f
  · nofun

theorem whenReady_ne_fault (s s' : State) (r : Refusal) (f : Fault) : runFetched (whenReady s r s') ≠ .fault f := by
  obtain ⟨-, h⟩ | ⟨-, h⟩ := whenReady_cases s r s' <;> rw [h, runFetched] <;> nofun

theorem hostTurn_ne_fault (m : HostMove) (s : State) (f : Fault) : runFetched (hostTurn m s) ≠ .fault f := by
  cases m with
  | wait => exact blockTurn_ne_fault s f
  | reset => nofun
  | present bs => exact whenReady_ne_fault s _ _ f
  | edit a b =>
    rw [hostTurn]
    split
    · exact whenReady_ne_fault s _ _ f
    · nofun
  | setCursor n => exact whenReady_ne_fault s _ _ f
  | start op => exact whenReady_ne_fault s _ _ f
  | operation op => exact exec_decodeOp_ne_fault op s f
  | read r => rw [hostTurn_read]; split <;> nofun

theorem step_ne_fault (s : State) (f : Fault) : step s ≠ .fault f := by
  cases hhost : s.host with
  | nil => rw [step_no_move hhost]; exact blockTurn_ne_fault s f
  | cons m moves => rw [step_move hhost]; exact hostTurn_ne_fault m _ f

/-- While an operation goes on, no step writes what the host will read of it (42_byte_serial_machine.md R171). -/
theorem step_to_reading {s t : State} (h : step s = .next t) (hreading : t.phase = .reading) :
    t.value = s.value ∧ t.status = s.status ∧ t.cursor = s.cursor := by
  cases step_next h with
  | idle | cont | present | edit | start | read => exact ⟨rfl, rfl, rfl⟩
  | endOfBuffer | tooLong | last | reset => cases hreading
  | setCursor n moves _ hphase => exact absurd hreading hphase
  | operation op moves _ _ hexec => exact absurd hreading (exec_decodeOp_not_reading hexec)

theorem step_to_failed {s t : State} (h : step s = .next t) (hphase : s.phase = .reading) (hfailed : t.phase = .failed) :
    t.value = 0 ∧ t.cursor = s.cursor := by
  cases step_next h with
  | endOfBuffer | tooLong => exact ⟨rfl, rfl⟩
  | idle | cont | read => cases hphase.symm.trans hfailed
  | last | reset | start => cases hfailed
  | present _ _ _ hready | edit _ _ _ _ hready | setCursor _ _ _ hready => exact absurd hphase hready
  | operation op moves _ _ hexec =>
    obtain ⟨k, rfl⟩ := exec_decodeOp_failed hexec hfailed
    exact ⟨rfl, rfl⟩

/-- An operation that moves the cursor has succeeded and moved it forward (10_state.md R24). -/
theorem exec_decodeOp_cursor_moved {op : OpBit} {s t : State} (h : exec (decodeOp op) s = .next t)
    (hmoved : t.cursor ≠ s.cursor) : t.phase = .done ∧ t.status = .ok ∧ s.cursor < t.cursor := by
  obtain ⟨-, ⟨bs, henc, -, rfl⟩ | ⟨-, rfl⟩ | ⟨-, rfl⟩⟩ := exec_decodeOp_cases h
  · obtain ⟨-, hend⟩ := (encodedInteger_iff op bs).mp henc
    exact ⟨rfl, rfl, Nat.lt_add_of_pos_right (length_pos_of_endsWithLast hend)⟩
  · exact absurd rfl hmoved
  · exact absurd rfl hmoved

/-- The cursor and the read position after an operation stay where they were or within the buffer. -/
theorem exec_decodeOp_indices {op : OpBit} {s t : State} (h : exec (decodeOp op) s = .next t) :
    (t.cursor = s.cursor ∨ t.cursor ≤ s.len) ∧ t.ptr = s.cursor := by
  obtain ⟨-, ⟨bs, henc, hhold, rfl⟩ | ⟨-, rfl⟩ | ⟨-, rfl⟩⟩ := exec_decodeOp_cases h
  · obtain ⟨-, hend⟩ := (encodedInteger_iff op bs).mp henc
    exact ⟨.inr (add_length_le_of_holdsAt hend hhold), rfl⟩
  · exact ⟨.inl rfl, rfl⟩
  · exact ⟨.inl rfl, rfl⟩

theorem counters_le_of_inv {s : State} (h : Inv s) : s.off ≤ 70 ∧ s.cnt ≤ 10 := by
  obtain ⟨-, ⟨hoff, hcnt⟩, -, -⟩ := h
  have hmaxb : Config.maxb s.opq ≤ 10 := by
    obtain hop | hop := opBit_cases s.opq <;> rw [hop] <;> decide
  omega

/-- The state `s` with the hidden registers of `r`. -/
def withHiddenOf (r s : State) : State :=
  { s with opq := r.opq, acc := r.acc, off := r.off, ptr := r.ptr, cnt := r.cnt }

/-- A view says everything but the hidden registers (10_state.md R31). -/
theorem eq_withHiddenOf {s s' : State} (h : view s = view s') : s' = withHiddenOf s' s := by
  cases s
  cases s'
  simp only [view, View.mk.injEq] at h
  simp [withHiddenOf, h]

theorem view_takeMove {s s' : State} (h : view s = view s') (moves : List HostMove) :
    view (takeMove moves s) = view (takeMove moves s') := by
  rw [eq_withHiddenOf h]
  rfl

/-- START overwrites every hidden register. -/
theorem startOperation_eq_of_view_eq {s s' : State} (h : view s = view s') (op : OpBit) :
    startOperation op s' = startOperation op s := by
  rw [eq_withHiddenOf h]
  rfl

theorem exec_decodeOp_eq_of_view_eq {s s' : State} (h : view s = view s') (op : OpBit) :
    exec (decodeOp op) s' = exec (decodeOp op) s := by
  rw [exec_decodeOp_eq, exec_decodeOp_eq, startOperation_eq_of_view_eq h, ← decodeLoop_startOperation op s',
    startOperation_eq_of_view_eq h, decodeLoop_startOperation, show s'.phase = s.phase from (congrArg View.phase h).symm,
    show s'.cursor = s.cursor from (congrArg View.cursor h).symm]

/-- Outside READING a step of a state with the same view shows the same. -/
theorem step_view {s s' t : State} (hphase : s.phase ≠ .reading) (hview : view s = view s') (h : step s = .next t) :
    ∃ t', step s' = .next t' ∧ view t' = view t := by
  rw [eq_withHiddenOf hview]
  set r := withHiddenOf s' s
  have hr : view s = view r := rfl
  cases step_next h with
  | idle hmoves => exact ⟨_, step_idle_taken (s := r) hmoves hphase, rfl⟩
  | endOfBuffer _ hreading | tooLong _ hreading | cont _ _ hreading | last _ _ hreading => exact absurd hreading hphase
  | reset moves hhost => exact ⟨_, step_reset (s := r) hhost, rfl⟩
  | present bs moves hhost => exact ⟨_, (step_present (s := r) hhost).trans (whenReady_ready _ hphase), rfl⟩
  | edit a b moves hhost _ ha => exact ⟨_, (step_edit (s := r) hhost ha).trans (whenReady_ready _ hphase), rfl⟩
  | setCursor n moves hhost => exact ⟨_, (step_setCursor (s := r) hhost).trans (whenReady_ready _ hphase), rfl⟩
  | start op moves hhost => exact ⟨_, (step_start (s := r) hhost).trans (whenReady_ready _ hphase), rfl⟩
  | operation op moves _ hhost hexec =>
    have hsame : exec (decodeOp op) (takeMove moves r) = exec (decodeOp op) (takeMove moves s) :=
      exec_decodeOp_eq_of_view_eq (view_takeMove hr moves) op
    exact ⟨t, (step_operation (s := r) hhost).trans (hsame.trans hexec), rfl⟩
  | read q moves hhost hread => exact ⟨_, (step_read (s := r) hhost).trans (if_pos hread), rfl⟩

end Sys2Proof.Machine
end

section
/-! The obligations over all steps of the machine. -/

namespace Sys2Proof.Proofs

open Sys2Proof.Machine Sys2Proof.Safety

/-- Settles O38, by the cases of a step. -/
theorem nothingPartialEscapes : Obligations.NothingPartialEscapes :=
  ⟨fun _ _ => step_to_reading, fun _ _ hphase h => step_to_failed h hphase⟩

/-- Settles O52: every read is guarded. -/
theorem noStepFaults : Obligations.NoStepFaults :=
  fun s f => ⟨step_ne_fault s f, fun i => exec_ne_fault i s f⟩

/-- Settles O53: of the steps only `present` and `edit` write `mem` or `len`. -/
theorem onlyTheHostChangesTheBuffer : Obligations.OnlyTheHostChangesTheBuffer := by
  intro s t h hchanged
  have habsurd (hmem : t.mem = s.mem) (hlen : t.len = s.len) : False := hchanged.elim (· hmem) (· hlen)
  cases step_next h with
  | present bs moves hhost hphase => exact ⟨hphase, .inl ⟨bs, moves, hhost⟩⟩
  | edit a b moves hhost hphase ha => exact ⟨hphase, .inr ⟨a, b, moves, hhost, ha, rfl⟩⟩
  | operation op moves _ _ hexec =>
    obtain ⟨hmem, hlen⟩ := exec_decodeOp_mem_len hexec
    exact (habsurd hmem hlen).elim
  | idle | endOfBuffer | tooLong | cont | last | reset | setCursor | start | read => exact (habsurd rfl rfl).elim

/-- Settles O56: a step outside READING uses no hidden register, and START writes all of them. -/
theorem hiddenRegistersHaveNoEffect : Obligations.HiddenRegistersHaveNoEffect := by
  refine fun s s' t hphase hview h => ⟨step_view hphase hview h, fun op moves hhost => ?_⟩
  have hstart : step s = .next (startOperation op (takeMove moves s)) :=
    (step_start hhost).trans (whenReady_ready _ hphase)
  cases h.symm.trans hstart
  have hhost' : s'.host = .start op :: moves := (congrArg View.host hview).symm.trans hhost
  have hphase' : s'.phase ≠ .reading := fun hreading => hphase ((congrArg View.phase hview).trans hreading)
  have hstart' : step s' = .next (startOperation op (takeMove moves s')) :=
    (step_start hhost').trans (whenReady_ready _ hphase')
  rw [hstart', startOperation_eq_of_view_eq (view_takeMove hview moves)]

/-- Settles O54: a LAST byte ends at `ptr + 1`, which the invariant puts beyond the cursor. -/
theorem onlySuccessHostOrResetMovesTheCursor : Obligations.OnlySuccessHostOrResetMovesTheCursor := by
  rintro s t ⟨-, -, hreading, -⟩ h hmoved
  cases step_next h with
  | last g hmoves hphase =>
    obtain ⟨hptr, -⟩ := hreading hphase
    have hforward : s.cursor < s.ptr + 1 := by omega
    exact .inl ⟨rfl, rfl, hforward, .inl hmoves⟩
  | operation op moves _ hhost hexec =>
    obtain ⟨hdone, hok, hforward⟩ := exec_decodeOp_cursor_moved hexec hmoved
    exact .inl ⟨hdone, hok, hforward, .inr ⟨op, moves, hhost⟩⟩
  | setCursor n moves hhost hphase => exact .inr (.inl ⟨hphase, n, moves, hhost⟩)
  | reset moves hhost => exact .inr (.inr ⟨moves, hhost⟩)
  | idle | endOfBuffer | tooLong | cont | present | edit | start | read => exact absurd rfl hmoved

/-- Settles O55: an index moves only past a byte that was read below `LEN`; the counters are bounded by the invariant. -/
theorem noIndexOutgrowsTheInstance : Obligations.NoIndexOutgrowsTheInstance := by
  intro aw s t hinv hlen hcursor hptr hmove h
  have hcounters := counters_le_of_inv (inv_step hinv h)
  have hindices : t.cursor < 2 ^ aw ∧ t.ptr < 2 ^ aw := by
    cases step_next h with
    | cont g _ _ hl => exact ⟨hcursor, Nat.lt_of_le_of_lt hl hlen⟩
    | last g _ _ hl => exact ⟨Nat.lt_of_le_of_lt hl hlen, Nat.lt_of_le_of_lt hl hlen⟩
    | start => exact ⟨hcursor, hcursor⟩
    | operation op moves _ _ hexec =>
      obtain ⟨hc | hc, hp⟩ := exec_decodeOp_indices hexec
      · exact ⟨hc ▸ hcursor, hp ▸ hcursor⟩
      · exact ⟨Nat.lt_of_le_of_lt hc hlen, hp ▸ hcursor⟩
    | reset => exact ⟨Nat.two_pow_pos aw, Nat.two_pow_pos aw⟩
    | setCursor n moves hhost => simp [blockMoves, hhost] at hmove
    | idle | endOfBuffer | tooLong | present | edit | read => exact ⟨hcursor, hptr⟩
  exact ⟨hindices.1, hindices.2, hcounters⟩

end Sys2Proof.Proofs
end

section
/-! The byte's class by its value, and where a BYTE step is refused. -/

namespace Sys2Proof.Machine

open Sys2Proof.Safety

/-- Bit 7 of a byte is set from 128 on (30_encoding.md R72). -/
theorem continues_iff (b : Byte) : continues b = true ↔ 128 ≤ b.toNat := by
  revert b
  decide

theorem decodeByte_byteWord_one (g : Segment) : decodeByte (byteWord 1 g) = .cont g := by
  rw [decodeByte_cont (continues_byteWord 1 g), segmentOf_byteWord]

theorem decodeByte_byteWord_zero (g : Segment) : decodeByte (byteWord 0 g) = .last g := by
  rw [decodeByte_last (continues_byteWord 0 g), segmentOf_byteWord]

theorem byteStep_refused_iff (s s' : State) :
    byteStep s s' = .refused .byteOutsideReading ↔ s.phase ≠ .reading := by
  refine ⟨fun h hphase => ?_, byteStep_not_reading⟩
  obtain hlt | hge := Nat.lt_or_ge s.ptr s.len
  · cases (byteStep_read hphase hlt).symm.trans h
  · cases (byteStep_end hphase hge).symm.trans h

end Sys2Proof.Machine
end

section
/-! The obligations on the decoder, the status codes and the frame of the byte classes. -/

namespace Sys2Proof.Proofs

open Sys2Proof.Machine Sys2Proof.Safety

/-- Settles O1: bit 7 is the byte's comparison with 128, and the segment is what is left of it. -/
theorem byteValueFixesClassAndSegment : Obligations.ByteValueFixesClassAndSegment := by
  intro b
  refine ⟨fun hlt => ?_, fun hge => ?_⟩
  · have hc : continues b = false := by
      rw [Bool.eq_false_iff, ne_eq, continues_iff]
      omega
    exact ⟨_, decodeByte_last hc, (segmentOf_toNat b).trans (Nat.mod_eq_of_lt hlt)⟩
  · refine ⟨_, decodeByte_cont ((continues_iff b).mpr hge), (segmentOf_toNat b).trans ?_⟩
    omega

/-- Settles O2, by running the decoder. -/
theorem specWordsDecode : Obligations.SpecWordsDecode :=
  ⟨rfl, rfl, rfl, rfl, rfl, rfl, rfl⟩

/-- Settles O3: a word's bit 7 and low bits are the class and the segment it was made of. -/
theorem decodeOfEncodeIsTheInstruction : Obligations.DecodeOfEncodeIsTheInstruction := by
  intro i rest _
  cases i with
  | decodeVarInt => rfl
  | decodeVarLong => rfl
  | cont g => exact congrArg (fun j => Except.ok (j, rest)) (decodeByte_byteWord_one g)
  | last g => exact congrArg (fun j => Except.ok (j, rest)) (decodeByte_byteWord_zero g)

/-- Settles O4, over the 256 bytes. -/
theorem encodeOfDecodedByteIsTheByte : Obligations.EncodeOfDecodedByteIsTheByte := by
  unfold Obligations.EncodeOfDecodedByteIsTheByte
  decide

/-- Settles O5: the table, and each of its rows for the two clauses on bits. -/
theorem statusCodesFollowTheTable : Obligations.StatusCodesFollowTheTable := by
  refine ⟨rfl, rfl, rfl, rfl, fun st => ?_, fun op => ?_⟩
  · match st with
    | .ok => decide
    | .error .unexpectedEndOfBuffer => decide
    | .error .varIntTooLong => decide
    | .error .varLongTooLong => decide
  · obtain rfl | rfl := opBit_cases op <;> decide

/-- Settles O34: the refusal is the first test of a BYTE step. -/
theorem byteClassRefusedExactlyOutsideReading : Obligations.ByteClassRefusedExactlyOutsideReading :=
  fun _ s => ⟨byteStep_refused_iff s _, byteStep_refused_iff s _⟩

/-- Settles O35: the three ends of CONT and the two of LAST. -/
theorem byteClassFrame : Obligations.ByteClassFrame := by
  refine fun g s t => ⟨fun h => ?_, fun h => ?_⟩
  · obtain ⟨hphase, ⟨-, rfl⟩ | ⟨-, -, rfl⟩ | ⟨-, -, rfl⟩⟩ := execCont_next h
    · exact ⟨rfl, fun _ => rfl, rfl, rfl, rfl, rfl, nofun, fun _ => ⟨rfl, rfl, rfl, rfl⟩⟩
    · exact ⟨rfl, fun _ => rfl, rfl, rfl, rfl, rfl, nofun, fun _ => ⟨rfl, rfl, rfl, rfl⟩⟩
    · exact ⟨rfl, fun _ => rfl, rfl, rfl, rfl, rfl, fun _ => ⟨rfl, rfl⟩, fun hne => absurd hphase hne⟩
  · obtain ⟨-, ⟨-, rfl⟩ | ⟨-, rfl⟩⟩ := execLast_next h
    · exact ⟨rfl, fun _ => rfl, rfl, rfl, rfl, nofun, fun _ => ⟨rfl, rfl, rfl, rfl, rfl⟩, nofun⟩
    · exact ⟨rfl, fun _ => rfl, rfl, rfl, rfl, nofun, nofun, fun _ => ⟨rfl, rfl, rfl, rfl⟩⟩

/-- Settles O57: the success writes neither `acc` nor the counters. -/
theorem lastByteKeepsWhatItAccumulated : Obligations.LastByteKeepsWhatItAccumulated :=
  fun g s hphase hl =>
    ⟨_, exec_last_in_buffer g hphase hl, accumulate_eq_or s.opq s.acc g s.off, rfl, rfl, rfl, rfl⟩

/-- Settles O58: the bounds check comes before the byte's class. -/
theorem byteClassAtEndOfBufferFails : Obligations.ByteClassAtEndOfBufferFails :=
  fun _ hphase hl _ => ⟨byteStep_end hphase hl, byteStep_end hphase hl⟩

end Sys2Proof.Proofs
end
